-- ==== Sys2Proof/Word.lean ====
section
/-! DEFINITION. The word type of the LS-8: every datum, register, address and operand is one unsigned byte
(00_scope.md R14: XLEN = AWIDTH = PCWIDTH = SPWIDTH = 8). -/

namespace Sys2Proof

/-- A byte (XLEN = 8, R14). `+`, `-`, `*` on it are the spec's `+8`, `-8`, `*8`. -/
abbrev Byte := BitVec 8

/-- The index of a general register, R0 to R7 (NREG = 8, R14, R20). -/
abbrev RegIdx := Fin 8

/-- The number of an interrupt line, 0 to 7 (NINT = 8, R14, R210). -/
abbrev Line := Fin 8

end Sys2Proof
end

