-- ==== Sys2Proof/Config.lean ====
section
/-! DEFINITION. The open parameters of the LS-8 (00_scope.md R15): what one implementation fixes and the spec leaves
to it. A `Config` is plain data; the values the spec adopts by default are in Machine/Defaults.lean, and the default
opcode table T1 is in Decode.lean. MEM0 and IM0, the launch parameters, are arguments of `State.launch`. -/

namespace Sys2Proof

/-- The 30 mnemonics of the instruction set (30_encoding.md R76), the keys of OPCODE_TABLE. -/
inductive Mnemonic where
  | nop | hlt | ret | iret
  | pra | prn | call | int | pop | push
  | jmp | jeq | jne | jlt | jgt
  | not | inc | dec
  | ld | ldi | st
  | cmp | add | sub | mul | div | mod | or | xor | and
  deriving DecidableEq, Repr

/-- OPCODE_TABLE (R15, R76): the opcode byte of each mnemonic. R77 says which tables are legal
(`OpcodeTable.valid` in Decode.lean). -/
structure OpcodeTable where
  nop  : Byte
  hlt  : Byte
  ret  : Byte
  iret : Byte
  pra  : Byte
  prn  : Byte
  call : Byte
  int  : Byte
  pop  : Byte
  push : Byte
  jmp  : Byte
  jeq  : Byte
  jne  : Byte
  jlt  : Byte
  jgt  : Byte
  not  : Byte
  inc  : Byte
  dec  : Byte
  ld   : Byte
  ldi  : Byte
  st   : Byte
  cmp  : Byte
  add  : Byte
  sub  : Byte
  mul  : Byte
  div  : Byte
  mod  : Byte
  or   : Byte
  xor  : Byte
  and  : Byte
  deriving DecidableEq, Repr

/-- STACK_OOR (R15, R150, R151, D4): what a push or pop outside addresses 0..243 does. -/
inductive StackOor where
  | fault | wrap
  deriving DecidableEq, Repr

/-- REG_INDEX_MODE (R15, R73, D15): what a register operand byte above 7 does. -/
inductive RegIndexMode where
  | fault | mask3
  deriving DecidableEq, Repr

/-- AA3_MODE (R15, R80, R195, D16): what an opcode byte 0xC0..0xFF does. -/
inductive Aa3Mode where
  | nop | fault
  deriving DecidableEq, Repr

/-- PUSH_DATA (R15, R152, D17): whether PUSH stores the register's value or its index. -/
inductive PushData where
  | value | index
  deriving DecidableEq, Repr

/-- VECTOR_MODE (R15, R217, D10): the handler address of a line is read from the vector table in memory, or is an
entry of the parameter table VADDR. -/
inductive VectorMode where
  | indirect
  | direct (vaddr : Vector Byte 8)
  deriving DecidableEq, Repr

/-- One choice of every open parameter a running core reads (R15). -/
structure Config where
  opcodes       : OpcodeTable
  stackOor      : StackOor
  regIndexMode  : RegIndexMode
  aa3Mode       : Aa3Mode
  pushData      : PushData
  pushMirrorsR7 : Bool
  vectorMode    : VectorMode
  deriving DecidableEq, Repr

end Sys2Proof
end

