-- ==== Sys2Proof/Syntax.lean ====
section
/-! DEFINITION. The instructions of the LS-8, one constructor per row of spec/opcode_table.json (30_encoding.md R72,
R76, R80). A register operand is the whole operand byte (R73): a byte above 7 is an operand the hardware meets and
answers (REG_INDEX_MODE), so operands are bytes. In every constructor `ra` is operand A and `rb` operand B. -/

namespace Sys2Proof

inductive Instr where
  /-- NOP, F0 (R193). -/
  | nop
  /-- HLT, F0 (R192). -/
  | hlt
  /-- RET, F0 (R167). -/
  | ret
  /-- IRET, F0 (R191). -/
  | iret
  /-- PRA, F1R (R182). -/
  | pra (ra : Byte)
  /-- PRN, F1R (R181). -/
  | prn (ra : Byte)
  /-- CALL, F1R (R166). -/
  | call (ra : Byte)
  /-- INT, F1R (R190). -/
  | int (ra : Byte)
  /-- POP, F1R (R154). -/
  | pop (ra : Byte)
  /-- PUSH, F1R (R152). -/
  | push (ra : Byte)
  /-- JMP, F1R (R161). -/
  | jmp (ra : Byte)
  /-- JEQ, F1R (R162). -/
  | jeq (ra : Byte)
  /-- JNE, F1R (R163). -/
  | jne (ra : Byte)
  /-- JLT, F1R (R165). -/
  | jlt (ra : Byte)
  /-- JGT, F1R (R164). -/
  | jgt (ra : Byte)
  /-- NOT, F1R (R123). -/
  | not (ra : Byte)
  /-- INC, F1R (R117). -/
  | inc (ra : Byte)
  /-- DEC, F1R (R118). -/
  | dec (ra : Byte)
  /-- LD, F2RR (R141): `ra` the destination, `rb` the address register. -/
  | ld (ra rb : Byte)
  /-- LDI, F2RI (R140): `ra` the destination, `imm8` the immediate byte. -/
  | ldi (ra imm8 : Byte)
  /-- ST, F2RR (R142): `ra` the address register, `rb` the data register. -/
  | st (ra rb : Byte)
  /-- CMP, F2RR (R119). -/
  | cmp (ra rb : Byte)
  /-- ADD, F2RR (R112). -/
  | add (ra rb : Byte)
  /-- SUB, F2RR (R113). -/
  | sub (ra rb : Byte)
  /-- MUL, F2RR (R114). -/
  | mul (ra rb : Byte)
  /-- DIV, F2RR (R115). -/
  | div (ra rb : Byte)
  /-- MOD, F2RR (R116). -/
  | mod (ra rb : Byte)
  /-- OR, F2RR (R121). -/
  | or (ra rb : Byte)
  /-- XOR, F2RR (R122). -/
  | xor (ra rb : Byte)
  /-- AND, F2RR (R120). -/
  | and (ra rb : Byte)
  /-- A reserved opcode byte, AA = 3 (R80, R195): the byte itself. -/
  | reservedAa3 (opcode : Byte)
  deriving DecidableEq, Repr

end Sys2Proof
end

