-- ==== Sys2Proof/WellFormed.lean ====
section
/-! DEFINITION. Which terms of `Instr` stand for bytes the hardware can fetch. The one check: the byte carried by
`reservedAa3` lies in 0xC0..0xFF (30_encoding.md R80). Every operand byte is legal as an encoding (R73 says what a
register byte above 7 DOES, R74 that every immediate is legal), so the other constructors carry no check. -/

namespace Sys2Proof

/-- `i` is the reading of some bytes. -/
def Instr.wf (i : Instr) : Bool :=
  match i with
  | .nop => true
  | .hlt => true
  | .ret => true
  | .iret => true
  | .pra _ => true
  | .prn _ => true
  | .call _ => true
  | .int _ => true
  | .pop _ => true
  | .push _ => true
  | .jmp _ => true
  | .jeq _ => true
  | .jne _ => true
  | .jlt _ => true
  | .jgt _ => true
  | .not _ => true
  | .inc _ => true
  | .dec _ => true
  | .ld _ _ => true
  | .ldi _ _ => true
  | .st _ _ => true
  | .cmp _ _ => true
  | .add _ _ => true
  | .sub _ _ => true
  | .mul _ _ => true
  | .div _ _ => true
  | .mod _ _ => true
  | .or _ _ => true
  | .xor _ _ => true
  | .and _ _ => true
  | .reservedAa3 opcode => decide (0xC0#8 ≤ opcode)

end Sys2Proof
end

