-- ==== Sys2Proof/Decode.lean ====
section
/-! DEFINITION. The decoder of 30_encoding.md (R70 to R81) and, after it, the encoder, both over any OPCODE_TABLE. The
decoder is total on any bytes and never fails (R75): a byte with no mnemonic and AA < 3 is answered by name,
`Decoded.unknown`. -/

namespace Sys2Proof

/-! ### The opcode byte's fields (R71) -/

/-- AA, the number of operand bytes: `IR[7:6]` (R70). -/
def argCount (ir : Byte) : BitVec 2 := ir.extractLsb' 6 2

/-- The ALU bit: `IR[5]` (R71). -/
def isAluOp (ir : Byte) : Bool := ir.getLsbD 5

/-- The length in bytes of the instruction whose opcode byte is `ir`: `1 + AA` (R70). -/
def instrLength (ir : Byte) : Byte := 1 + (argCount ir).setWidth 8

/-! ### Formats (R72) and classes (R77) of the mnemonics -/

/-- The four instruction formats (R72). -/
inductive Format where
  | f0 | f1r | f2rr | f2ri
  deriving DecidableEq, Repr

/-- The number of operand bytes of a format (R72). -/
def Format.argCount : Format → BitVec 2
  | .f0 => 0
  | .f1r => 1
  | .f2rr => 2
  | .f2ri => 2

/-- The format of each instruction (R72). -/
def Mnemonic.format : Mnemonic → Format
  | .nop | .hlt | .ret | .iret => .f0
  | .pra | .prn | .call | .int | .pop | .push => .f1r
  | .jmp | .jeq | .jne | .jlt | .jgt => .f1r
  | .not | .inc | .dec => .f1r
  | .ldi => .f2ri
  | .ld | .st => .f2rr
  | .cmp | .add | .sub | .mul | .div | .mod | .or | .xor | .and => .f2rr

/-- The ALU class of each instruction (R77). -/
def Mnemonic.isAlu : Mnemonic → Bool
  | .nop | .hlt | .ret | .iret => false
  | .pra | .prn | .call | .int | .pop | .push => false
  | .jmp | .jeq | .jne | .jlt | .jgt => false
  | .ld | .ldi | .st => false
  | .not | .inc | .dec => true
  | .cmp | .add | .sub | .mul | .div | .mod | .or | .xor | .and => true

/-- The control-transfer instructions, which write PC themselves (R96). -/
def Mnemonic.isControlTransfer : Mnemonic → Bool
  | .jmp | .jeq | .jne | .jgt | .jlt | .call | .ret | .iret => true
  | .nop | .hlt | .pra | .prn | .int | .pop | .push => false
  | .not | .inc | .dec | .ld | .ldi | .st => false
  | .cmp | .add | .sub | .mul | .div | .mod | .or | .xor | .and => false

/-- The 30 mnemonics, in the order of table T1 (R76). -/
def Mnemonic.all : List Mnemonic :=
  [.nop, .hlt, .ret, .iret, .pra, .prn, .call, .int, .pop, .push] ++
  [.jmp, .jeq, .jne, .jlt, .jgt, .not, .inc, .dec] ++
  [.ld, .ldi, .st, .cmp, .add, .sub, .mul, .div, .mod, .or, .xor, .and]

/-! ### OPCODE_TABLE (R76, R77) -/

/-- OPCODE_TABLE(m). -/
def OpcodeTable.byteOf (t : OpcodeTable) : Mnemonic → Byte
  | .nop => t.nop
  | .hlt => t.hlt
  | .ret => t.ret
  | .iret => t.iret
  | .pra => t.pra
  | .prn => t.prn
  | .call => t.call
  | .int => t.int
  | .pop => t.pop
  | .push => t.push
  | .jmp => t.jmp
  | .jeq => t.jeq
  | .jne => t.jne
  | .jlt => t.jlt
  | .jgt => t.jgt
  | .not => t.not
  | .inc => t.inc
  | .dec => t.dec
  | .ld => t.ld
  | .ldi => t.ldi
  | .st => t.st
  | .cmp => t.cmp
  | .add => t.add
  | .sub => t.sub
  | .mul => t.mul
  | .div => t.div
  | .mod => t.mod
  | .or => t.or
  | .xor => t.xor
  | .and => t.and

/-- Table T1, the default of OPCODE_TABLE (R76). PRESUMED (unsafe): the byte values are the spec's general knowledge,
not its source's (D1, G1; log 1). -/
def OpcodeTable.t1 : OpcodeTable where
  nop  := 0x00
  hlt  := 0x01
  ret  := 0x09
  iret := 0x0B
  pra  := 0x42
  prn  := 0x43
  call := 0x48
  int  := 0x4A
  pop  := 0x4C
  push := 0x4D
  jmp  := 0x50
  jeq  := 0x51
  jne  := 0x52
  jlt  := 0x53
  jgt  := 0x54
  not  := 0x70
  inc  := 0x78
  dec  := 0x79
  ld   := 0x98
  ldi  := 0x99
  st   := 0x9A
  cmp  := 0xA0
  add  := 0xA8
  sub  := 0xA9
  mul  := 0xAA
  div  := 0xAB
  mod  := 0xAC
  or   := 0xB1
  xor  := 0xB2
  and  := 0xB3

/-- The constraints every OPCODE_TABLE satisfies (R77): the byte values are distinct, and each byte's `IR[7:6]` and
`IR[5]` are the instruction's operand count and ALU class. -/
def OpcodeTable.valid (t : OpcodeTable) : Bool :=
  Mnemonic.all.all fun m =>
    argCount (t.byteOf m) == m.format.argCount && isAluOp (t.byteOf m) == m.isAlu &&
      Mnemonic.all.all fun n => t.byteOf m != t.byteOf n || m == n

/-- The mnemonic whose opcode byte is `ir`, none for UNKNOWN (R75, `ident`). -/
def OpcodeTable.identify (t : OpcodeTable) (ir : Byte) : Option Mnemonic :=
  Mnemonic.all.find? fun m => t.byteOf m == ir

/-! ### The decoder (R75) -/

/-- The decoder's outputs for an opcode byte (R75). -/
structure DecodeInfo where
  argCount  : BitVec 2
  isALUOp   : Bool
  setsFlags : Bool
  ident     : Option Mnemonic
  deriving DecidableEq, Repr

/-- `decode(IR)` (R75): a pure total function of the opcode byte. Dispatch reads `ident` alone (R94). -/
def decodeOpcode (t : OpcodeTable) (ir : Byte) : DecodeInfo where
  argCount := argCount ir
  isALUOp := isAluOp ir
  setsFlags := ir == t.byteOf .cmp
  ident := t.identify ir

/-- The instruction a mnemonic makes with the operand bytes its format uses (R72); the others are not looked at
(R84). -/
def Mnemonic.instr (m : Mnemonic) (opa opb : Byte) : Instr :=
  match m with
  | .nop => .nop
  | .hlt => .hlt
  | .ret => .ret
  | .iret => .iret
  | .pra => .pra opa
  | .prn => .prn opa
  | .call => .call opa
  | .int => .int opa
  | .pop => .pop opa
  | .push => .push opa
  | .jmp => .jmp opa
  | .jeq => .jeq opa
  | .jne => .jne opa
  | .jlt => .jlt opa
  | .jgt => .jgt opa
  | .not => .not opa
  | .inc => .inc opa
  | .dec => .dec opa
  | .ld => .ld opa opb
  | .ldi => .ldi opa opb
  | .st => .st opa opb
  | .cmp => .cmp opa opb
  | .add => .add opa opb
  | .sub => .sub opa opb
  | .mul => .mul opa opb
  | .div => .div opa opb
  | .mod => .mod opa opb
  | .or => .or opa opb
  | .xor => .xor opa opb
  | .and => .and opa opb

/-- What three fetched bytes mean: an instruction of the table, or an unknown opcode byte (R79). -/
inductive Decoded where
  | instr (i : Instr)
  | unknown (opcode : Byte)
  deriving DecidableEq, Repr

/-- The reading of the latched bytes IR, OPA, OPB: dispatch is by identity (R94); a byte with no mnemonic is reserved
if AA = 3 (R80) and unknown otherwise (R79). -/
def decode (t : OpcodeTable) (ir opa opb : Byte) : Decoded :=
  match (decodeOpcode t ir).ident with
  | some m => .instr (m.instr opa opb)
  | none => if (decodeOpcode t ir).argCount = 3 then .instr (.reservedAa3 ir) else .unknown ir

/-- `decode` on the bytes of memory from the opcode byte up; bytes beyond the list's end read as zero. -/
def decodeBytes (t : OpcodeTable) (bytes : List Byte) : Decoded :=
  decode t (bytes.getD 0 0) (bytes.getD 1 0) (bytes.getD 2 0)

/-! ### The encoder (R72, R76, R82) -/

/-- The mnemonic of an instruction, none for the reserved class. -/
def Instr.mnemonic : Instr → Option Mnemonic
  | .nop => some .nop
  | .hlt => some .hlt
  | .ret => some .ret
  | .iret => some .iret
  | .pra _ => some .pra
  | .prn _ => some .prn
  | .call _ => some .call
  | .int _ => some .int
  | .pop _ => some .pop
  | .push _ => some .push
  | .jmp _ => some .jmp
  | .jeq _ => some .jeq
  | .jne _ => some .jne
  | .jlt _ => some .jlt
  | .jgt _ => some .jgt
  | .not _ => some .not
  | .inc _ => some .inc
  | .dec _ => some .dec
  | .ld _ _ => some .ld
  | .ldi _ _ => some .ldi
  | .st _ _ => some .st
  | .cmp _ _ => some .cmp
  | .add _ _ => some .add
  | .sub _ _ => some .sub
  | .mul _ _ => some .mul
  | .div _ _ => some .div
  | .mod _ _ => some .mod
  | .or _ _ => some .or
  | .xor _ _ => some .xor
  | .and _ _ => some .and
  | .reservedAa3 _ => none

/-- The bytes of an instruction: its opcode byte, then its operand bytes in order (R72, R82). The three bytes after a
reserved opcode carry nothing (R195); the encoder writes zeros there. DESIGN CHOICE (safe; log 23). -/
def encode (t : OpcodeTable) : Instr → List Byte
  | .nop => [t.nop]
  | .hlt => [t.hlt]
  | .ret => [t.ret]
  | .iret => [t.iret]
  | .pra ra => [t.pra, ra]
  | .prn ra => [t.prn, ra]
  | .call ra => [t.call, ra]
  | .int ra => [t.int, ra]
  | .pop ra => [t.pop, ra]
  | .push ra => [t.push, ra]
  | .jmp ra => [t.jmp, ra]
  | .jeq ra => [t.jeq, ra]
  | .jne ra => [t.jne, ra]
  | .jlt ra => [t.jlt, ra]
  | .jgt ra => [t.jgt, ra]
  | .not ra => [t.not, ra]
  | .inc ra => [t.inc, ra]
  | .dec ra => [t.dec, ra]
  | .ld ra rb => [t.ld, ra, rb]
  | .ldi ra imm8 => [t.ldi, ra, imm8]
  | .st ra rb => [t.st, ra, rb]
  | .cmp ra rb => [t.cmp, ra, rb]
  | .add ra rb => [t.add, ra, rb]
  | .sub ra rb => [t.sub, ra, rb]
  | .mul ra rb => [t.mul, ra, rb]
  | .div ra rb => [t.div, ra, rb]
  | .mod ra rb => [t.mod, ra, rb]
  | .or ra rb => [t.or, ra, rb]
  | .xor ra rb => [t.xor, ra, rb]
  | .and ra rb => [t.and, ra, rb]
  | .reservedAa3 opcode => [opcode, 0, 0, 0]

/-! ### The opcode table's numbering of an instruction's bits -/

/-- Byte `k` of an instruction of `nbits` bits given as the number `w`: bit 0 of `w` is the least significant bit of
the first byte, and every bit at or above `nbits` is 0. -/
def tableByte (nbits w k : Nat) : Byte := BitVec.ofNat 8 (w % 2 ^ nbits / 2 ^ (8 * k))

/-- The longest instruction in bytes: `1 + AA` with AA = 3 (R70, R80). -/
def maxInstrBytes : Nat := 4

/-- The bytes of that instruction, up to the longest instruction. -/
def tableBytes (nbits w : Nat) : List Byte := (List.range maxInstrBytes).map (tableByte nbits w)

/-- The instruction the decoder reads from an instruction's bits under table T1, none for an unknown opcode byte. -/
def decodeTableWord (nbits w : Nat) : Option Instr :=
  match decodeBytes OpcodeTable.t1 (tableBytes nbits w) with
  | .instr i => some i
  | .unknown _ => none

end Sys2Proof
end

