-- ==== Sys2Proof/Machine/Defaults.lean ====
section
/-! DEFINITION. The values the spec adopts: the defaults of the open parameters (00_scope.md R15) and the fixed
parameters of the stack and the vector table (R14). -/

namespace Sys2Proof.Machine

/-- The default of every open parameter (R15). DESIGN CHOICE, the spec's own (D1, D4, D10, D15 to D18; logs 1, 3 to
8). -/
def defaultConfig : Config where
  opcodes       := OpcodeTable.t1
  stackOor      := .fault
  regIndexMode  := .fault
  aa3Mode       := .nop
  pushData      := .value
  pushMirrorsR7 := true
  vectorMode    := .indirect

/-- SP_RESET, the stack pointer of the empty stack (R14, R28). -/
def spReset : Byte := 244

/-- VECTOR_BASE, the address of line 0's vector (R14, R217). PRESUMED, the spec's general knowledge (unsafe; log 8). -/
def vectorBase : Byte := 0xF8

/-- IM0's default (R15, R32). DESIGN CHOICE, the spec's own (D8; log 11). -/
def im0Default : Byte := 0

end Sys2Proof.Machine
end

