-- ==== Sys2Proof/Machine/Memory.lean ====
section
/-! DEFINITION. The memory of the LS-8 (20_memory.md R50, R51): 256 bytes, held as a sorted list of (address, byte)
pairs in one canonical form. An address is a byte, so every address is already reduced modulo 256. -/

namespace Sys2Proof.Machine

/-- The bytes of memory that differ from what an unlisted address reads as, addresses strictly rising. -/
abbrev Memory := List Host.Cell

/-- What an unlisted address reads as. DESIGN CHOICE (unsafe; log 12): the spec does not fix the bytes the loader did
not write (R243); a launch image (`State.launch`) may hold any byte at any address. -/
def Memory.unlisted : Byte := 0

/-- The byte at key `a`. -/
def Memory.lookup : Memory → Nat → Byte
  | [], _ => Memory.unlisted
  | (k, v) :: m, a => if k = a then v else Memory.lookup m a

/-- `m` with a cell in front of it, unless the cell says what an unlisted address says. -/
def Memory.withCell (a : Nat) (v : Byte) (m : Memory) : Memory :=
  if v = Memory.unlisted then m else (a, v) :: m

/-- `m` with byte `v` at key `a`, in canonical form. -/
def Memory.update : Memory → Nat → Byte → Memory
  | [], a, v => Memory.withCell a v []
  | (k, w) :: m, a, v =>
    if a < k then Memory.withCell a v ((k, w) :: m)
    else if a = k then Memory.withCell a v m
    else (k, w) :: Memory.update m a v

/-- `MemRead(addr, 1)` (R51). -/
def Memory.read (m : Memory) (addr : Byte) : Byte := Memory.lookup m addr.toNat

/-- `MemWrite(addr, 1, v)` (R51). -/
def Memory.write (m : Memory) (addr : Byte) (v : Byte) : Memory := Memory.update m addr.toNat v

/-- The cells lie at addresses from `lo` to 255, strictly rising, and none says what an unlisted address says. -/
def Memory.wfFrom : Nat → Memory → Bool
  | _, [] => true
  | lo, (k, v) :: m => decide (lo ≤ k) && decide (k < 256) && v != Memory.unlisted && Memory.wfFrom (k + 1) m

/-- The canonical form: equal memories are equal lists. -/
def Memory.wf (m : Memory) : Bool := Memory.wfFrom 0 m

/-- `m` with the bytes `bs` at `addr`, `addr + 1`, … (R53, R54). -/
def Memory.writeBytes (m : Memory) (addr : Byte) : List Byte → Memory
  | [] => m
  | b :: bs => Memory.writeBytes (Memory.write m addr b) (addr + 1) bs

end Sys2Proof.Machine
end

