-- ==== Sys2Proof/Machine/State.lean ====
section
/-! DEFINITION. The state of the LS-8 core (10_state.md), the reasons a step can stop, and the state after reset
(70_reset_and_hazards.md R240). -/

namespace Sys2Proof.Machine

/-- The fault codes (60_exceptions.md R201 to R206). -/
inductive FaultCode where
  /-- Code 1 (R201): DIV or MOD by a register holding 0. -/
  | divideByZero
  /-- Code 2 (R202): PUSH, CALL or interrupt entry with too little stack. -/
  | stackOverflow
  /-- Code 3 (R203): POP, RET or IRET with too few bytes on the stack. -/
  | stackUnderflow
  /-- Code 4 (R204): a register operand byte above 7. -/
  | badRegister
  /-- Code 5 (R205): INT of a number above 7. -/
  | badInterrupt
  /-- Code 6 (R206): an opcode byte with AA = 3. -/
  | reservedOpcode
  deriving DecidableEq, Repr

/-- The number of a fault code (R201 to R206). DESIGN CHOICE, the spec's own (D19; log 21). -/
def FaultCode.number : FaultCode → Nat
  | .divideByZero => 1
  | .stackOverflow => 2
  | .stackUnderflow => 3
  | .badRegister => 4
  | .badInterrupt => 5
  | .reservedOpcode => 6

/-- The diagnostic a fault leaves (R37, R207): `opcode` is none for a fault of an interrupt entry. -/
structure FaultRecord where
  code   : FaultCode
  pc     : Byte
  opcode : Option Byte
  info   : Byte
  deriving DecidableEq, Repr

/-- An output event (45_io.md R180). -/
inductive OutEvent where
  /-- PRN's event: the byte as an unsigned decimal number. -/
  | dec (v : Byte)
  /-- PRA's event: the byte as a character code. -/
  | char (v : Byte)
  deriving DecidableEq, Repr

/-- The state of the core (10_state.md), and `cfg`, the parameters of R15, fixed for a machine (log 2). -/
structure State where
  /-- R0 to R7 (R20). -/
  regs   : Vector Byte 8
  /-- The program counter (R23). -/
  pc     : Byte
  /-- The stack pointer, apart from R0 to R7 (R26). -/
  sp     : Byte
  /-- The flags register, `00000LGE` (R29). -/
  fl     : Byte
  /-- The interrupt mask (R32). -/
  im     : Byte
  /-- The pending interrupts (R33). -/
  is     : Byte
  /-- Interrupt in progress (R34). -/
  iip    : Bool
  /-- The latched opcode byte (R35). -/
  ir     : Byte
  /-- The latched operand A (R35). -/
  opa    : Byte
  /-- The latched operand B (R35). -/
  opb    : Byte
  /-- The terminal state was entered (R36). -/
  halted : Bool
  /-- The fault record (R37). -/
  fault  : Option FaultRecord
  /-- The output events, oldest first (R38). -/
  out    : List OutEvent
  /-- The 256 bytes of memory (R39). -/
  mem    : Memory
  /-- The open parameters (R15). -/
  cfg    : Config
  deriving DecidableEq, Repr

/-- The reasons a step can end the model's run with a fault: none. An LS-8 fault halts the machine and leaves a record
(R98), so it is a next state (`State.fault`), and no rule of the spec stops the machine in any other way. Safe. -/
inductive Fault where
  deriving DecidableEq, Repr

/-- The reasons a step can answer without a meaning. -/
inductive Refusal where
  /-- Raised by `exec` for an instruction not modelled yet; no arm of this model raises it. Safe. -/
  | notModelled (mnemonic : String)
  deriving DecidableEq, Repr

/-- The machine right after reset (R240), with the default parameters: R22, R25, R28, R31 to R34, R36 to R38 give the
values. IR, OPA, OPB have none (R35) and are 0: DESIGN CHOICE (unsafe; log 13). Memory lists nothing (log 12). -/
def State.reset : State where
  regs   := Vector.replicate 8 0
  pc     := 0
  sp     := spReset
  fl     := 0
  im     := im0Default
  is     := 0
  iip    := false
  ir     := 0
  opa    := 0
  opb    := 0
  halted := false
  fault  := none
  out    := []
  mem    := []
  cfg    := defaultConfig

end Sys2Proof.Machine
end

