-- ==== Sys2Proof/Machine/Ops.lean ====
section
/-! DEFINITION. The named operations over the state that every meaning shares: registers, memory, fetch, PC, output,
the stack primitives (43_stack.md R150, R151, R156), raising a fault (40_cycle.md R98), and the entry to and the return
from an interrupt (60_exceptions.md R214 to R218, 46_system.md R191). -/

namespace Sys2Proof.Machine

/-- What a meaning answers. -/
abbrev Result := Host.Outcome State Fault Refusal

/-! ### Registers and memory -/

/-- `R[r]` (R20). No register is hard-wired. -/
def State.reg (s : State) (r : RegIdx) : Byte := s.regs[r]

/-- `R[r] <- v` (R20). -/
def State.setReg (s : State) (r : RegIdx) (v : Byte) : State := { s with regs := s.regs.set r v }

/-- `MemRead(addr, 1)` (R51). -/
def State.readMem (s : State) (addr : Byte) : Byte := s.mem.read addr

/-- `MemWrite(addr, 1, v)` (R51). -/
def State.writeMem (s : State) (addr v : Byte) : State := { s with mem := s.mem.write addr v }

/-! ### Fetch, PC, output, flags -/

/-- Latch the three bytes at PC, PC + 1, PC + 2, always all three (R92). -/
def State.fetch (s : State) : State :=
  { s with ir := s.readMem s.pc, opa := s.readMem (s.pc + 1), opb := s.readMem (s.pc + 2) }

/-- `PC <- target` (R96). -/
def State.setPc (s : State) (target : Byte) : State := { s with pc := target }

/-- The generic increment `PC <- PC +8 n` for an instruction of `n` bytes (R95). -/
def State.advance (s : State) (n : Byte) : State := s.setPc (s.pc + n)

/-- `emit(e)`: append `e` to the output trace (R180). -/
def State.emit (s : State) (e : OutEvent) : State := { s with out := s.out ++ [e] }

/-- `FL <- v` (R30). -/
def State.setFl (s : State) (v : Byte) : State := { s with fl := v }

/-! ### Faults -/

/-- The machine halts with a record and nothing else changes; PC keeps its value (R98, R207). -/
def State.haltWith (s : State) (code : FaultCode) (opcode : Option Byte) (info : Byte) : State :=
  { s with halted := true, fault := some { code := code, pc := s.pc, opcode := opcode, info := info } }

/-- `raise Fault(code, info)` by an instruction: the record names the latched opcode byte (R98, R207). -/
def State.raiseFault (s : State) (code : FaultCode) (info : Byte) : State := s.haltWith code (some s.ir) info

/-! ### The stack -/

/-- `k` pushes are in range: `k <= SP <= 244` under STACK_OOR = fault, always under wrap (R150, R156). -/
def State.pushFits (s : State) (k : Nat) : Bool :=
  match s.cfg.stackOor with
  | .fault => decide (k ≤ s.sp.toNat) && decide (s.sp.toNat ≤ 244)
  | .wrap => true

/-- `k` pops are in range: `SP <= 244 - k` under STACK_OOR = fault, always under wrap (R151, R156). -/
def State.popFits (s : State) (k : Nat) : Bool :=
  match s.cfg.stackOor with
  | .fault => decide (s.sp.toNat + k ≤ 244)
  | .wrap => true

/-- The address the next push writes: SP is decremented first (R150). -/
def State.pushAddr (s : State) : Byte := s.sp - 1

/-- `Push(v)` after its range check (R150). -/
def State.push (s : State) (v : Byte) : State :=
  { s with sp := s.pushAddr, mem := s.mem.write s.pushAddr v }

/-- Push the bytes of a list, first to last. -/
def State.pushAll (s : State) (vs : List Byte) : State := vs.foldl State.push s

/-- The byte `Pop()` returns: the one at SP, read before SP moves (R151). -/
def State.top (s : State) : Byte := s.readMem s.sp

/-- What `Pop()` leaves: SP incremented, memory as it was (R151). -/
def State.dropTop (s : State) : State := { s with sp := s.sp + 1 }

/-! ### Interrupts -/

/-- `1 << n` for a line (00_scope.md section 4). -/
def lineBit (n : Line) : Byte := 1#8 <<< n.val

/-- `lowest_set_bit(v)`, none for 0 (R215). -/
def lowestSetBit (v : Byte) : Option Line := (List.finRange 8).find? fun n => v.getLsbD n.val

/-- Line `n` becomes pending; requests are not counted (R190, R213, R228). -/
def State.raiseLine (s : State) (n : Line) : State := { s with is := s.is ||| lineBit n }

/-- The line the cycle's start takes, if any: the lowest pending enabled one, while IIP = 0 (R212, R214, R215). -/
def State.takenLine (s : State) : Option Line :=
  match s.iip with
  | true => none
  | false => lowestSetBit (s.im &&& s.is)

/-- `Vector(n)` (R217). -/
def State.vector (s : State) (n : Line) : Byte :=
  match s.cfg.vectorMode with
  | .indirect => s.readMem (vectorBase + BitVec.ofNat 8 n.val)
  | .direct vaddr => vaddr[n]

/-- The registers an interrupt frame holds, in the order they are pushed: R0 first, R6 last (R216, D32). -/
def frameRegs : List RegIdx := [0, 1, 2, 3, 4, 5, 6]

/-- The bytes interrupt entry pushes, in order: PC, FL, R0 to R6 (R216). -/
def State.frame (s : State) : List Byte := s.pc :: s.fl :: frameRegs.map s.reg

/-- The number of bytes of an interrupt frame (R156, R216). -/
def frameSize : Nat := 9

/-- IIP is set and the taken line is no longer pending (R216, D11). -/
def State.acknowledge (s : State) (n : Line) : State := { s with iip := true, is := s.is &&& ~~~ lineBit n }

/-- Interrupt entry for line `n`, the whole effect of a cycle (R216); the vector is read after the pushes (R217). When
the nine bytes do not fit the machine halts with STACK_OVERFLOW, opcode none, and nothing else changes (R218). -/
def interruptEntry (n : Line) (s : State) : State :=
  if s.pushFits frameSize then
    let saved := (s.acknowledge n).pushAll s.frame
    saved.setPc (saved.vector n)
  else s.haltWith .stackOverflow none s.sp

/-- Pop one byte into `R[r]` (R191). -/
def State.popReg (s : State) (r : RegIdx) : State := s.dropTop.setReg r s.top

/-- Pop one byte into FL (R191). -/
def State.popFl (s : State) : State := s.dropTop.setFl s.top

/-- Pop one byte into PC (R167, R191). -/
def State.popPc (s : State) : State := s.dropTop.setPc s.top

/-- Interrupts are enabled again (R191). -/
def State.endInterrupt (s : State) : State := { s with iip := false }

/-- Return from an interrupt after its range check: R6 down to R0, FL, PC are popped and IIP becomes 0 (R191, R221). -/
def interruptReturn (s : State) : State :=
  (frameRegs.reverse.foldl State.popReg s).popFl.popPc.endInterrupt

/-! ### Placing an instruction where the next fetch finds it -/

/-- `s` made ready to fetch: running, with no line that the cycle's start would take (R91, R214). A running state with
no pending enabled line is left as it is. -/
def State.readyToFetch (s : State) : State :=
  { s with
    halted := false
    is := match s.takenLine with
      | none => s.is
      | some _ => s.is &&& ~~~ s.im }

/-- `s` with `bytes` stored from PC up (R53, R54). -/
def State.placeAtPc (s : State) (bytes : List Byte) : State := { s with mem := s.mem.writeBytes s.pc bytes }

end Sys2Proof.Machine
end

