-- ==== Sys2Proof/Machine/Flags.lean ====
section
/-! DEFINITION. The flags register (10_state.md R29): its bits, and the byte CMP writes (41_alu.md R119). PRESUMED, the
spec's general knowledge: the layout `00000LGE` (unsafe; log 10). -/

namespace Sys2Proof.Machine

/-- E, Equal: bit 0 of FL (R29). -/
def State.flagE (s : State) : Bool := s.fl.getLsbD 0

/-- G, Greater: bit 1 of FL (R29). -/
def State.flagG (s : State) : Bool := s.fl.getLsbD 1

/-- L, Less: bit 2 of FL (R29). -/
def State.flagL (s : State) : Bool := s.fl.getLsbD 2

/-- The byte CMP writes into FL for the unsigned values `x` and `y` (R119). -/
def compareFlags (x y : Byte) : Byte :=
  (if x < y then 0b100 else 0) ||| (if y < x then 0b010 else 0) ||| (if x = y then 0b001 else 0)

end Sys2Proof.Machine
end

