-- ==== Sys2Proof/Machine/Operands.lean ====
section
/-! DEFINITION. Operand forms (30_encoding.md R73, R74; 60_exceptions.md R208): a register operand is a whole byte,
checked before any effect of the instruction, operand A before operand B. -/

namespace Sys2Proof.Machine

/-- The register an operand byte names, none where it raises BAD_REGISTER (R73): under REG_INDEX_MODE = fault the byte
is the index, under mask3 its bits 2..0 are. -/
def regIndex (cfg : Config) (b : Byte) : Option RegIdx :=
  match cfg.regIndexMode with
  | .fault => if h : b.toNat < 8 then some ⟨b.toNat, h⟩ else none
  | .mask3 => some ⟨b.toNat % 8, Nat.mod_lt _ (by decide)⟩

/-- An instruction with one register operand: BAD_REGISTER, or its effect on the register named (R73, R204). -/
def withReg (ra : Byte) (s : State) (effect : RegIdx → State) : Result :=
  match regIndex s.cfg ra with
  | none => .next (s.raiseFault .badRegister ra)
  | some a => .next (effect a)

/-- An instruction with two register operands, A checked before B (R73, R208). -/
def withRegs (ra rb : Byte) (s : State) (effect : RegIdx → RegIdx → State) : Result :=
  match regIndex s.cfg ra with
  | none => .next (s.raiseFault .badRegister ra)
  | some a =>
    match regIndex s.cfg rb with
    | none => .next (s.raiseFault .badRegister rb)
    | some b => .next (effect a b)

end Sys2Proof.Machine
end

