-- ==== Sys2Proof/Machine/Alu.lean ====
section
/-! DEFINITION. The ALU instructions (41_alu.md). Every one but CMP writes its 8-bit result to `R[a]` alone (R110) and
leaves FL as it is (R111). -/

namespace Sys2Proof.Machine

/-- `R[a] <- f(R[a], R[b])`, three bytes (R110, R95). -/
def aluBinary (f : Byte → Byte → Byte) (ra rb : Byte) (s : State) : Result :=
  withRegs ra rb s fun a b => (s.setReg a (f (s.reg a) (s.reg b))).advance 3

/-- `R[a] <- f(R[a])`, two bytes (R110, R95). -/
def aluUnary (f : Byte → Byte) (ra : Byte) (s : State) : Result :=
  withReg ra s fun a => (s.setReg a (f (s.reg a))).advance 2

/-- DIV and MOD: a zero divisor raises DIVIDE_BY_ZERO with operand B as its info and writes nothing (R115, R116,
R201). DEDUCED (unsafe; log 20): the info is the whole operand byte, under REG_INDEX_MODE = mask3 too. -/
def aluDivide (f : Byte → Byte → Byte) (ra rb : Byte) (s : State) : Result :=
  withRegs ra rb s fun a b =>
    if s.reg b = 0 then s.raiseFault .divideByZero rb
    else (s.setReg a (f (s.reg a) (s.reg b))).advance 3

/-- ADD (R112). -/
def execAdd (ra rb : Byte) (s : State) : Result := aluBinary (· + ·) ra rb s

/-- SUB (R113). -/
def execSub (ra rb : Byte) (s : State) : Result := aluBinary (· - ·) ra rb s

/-- MUL (R114). -/
def execMul (ra rb : Byte) (s : State) : Result := aluBinary (· * ·) ra rb s

/-- DIV (R115): the unsigned quotient. -/
def execDiv (ra rb : Byte) (s : State) : Result := aluDivide (· / ·) ra rb s

/-- MOD (R116): the unsigned remainder. -/
def execMod (ra rb : Byte) (s : State) : Result := aluDivide (· % ·) ra rb s

/-- INC (R117). -/
def execInc (ra : Byte) (s : State) : Result := aluUnary (· + 1) ra s

/-- DEC (R118). -/
def execDec (ra : Byte) (s : State) : Result := aluUnary (· - 1) ra s

/-- CMP (R119): all of FL is written, no register is. -/
def execCmp (ra rb : Byte) (s : State) : Result :=
  withRegs ra rb s fun a b => (s.setFl (compareFlags (s.reg a) (s.reg b))).advance 3

/-- AND (R120). -/
def execAnd (ra rb : Byte) (s : State) : Result := aluBinary (· &&& ·) ra rb s

/-- OR (R121). -/
def execOr (ra rb : Byte) (s : State) : Result := aluBinary (· ||| ·) ra rb s

/-- XOR (R122). -/
def execXor (ra rb : Byte) (s : State) : Result := aluBinary (· ^^^ ·) ra rb s

/-- NOT (R123). -/
def execNot (ra : Byte) (s : State) : Result := aluUnary (~~~ ·) ra s

end Sys2Proof.Machine
end

