-- ==== Sys2Proof/Machine/Control.lean ====
section
/-! DEFINITION. The control-transfer instructions (44_control_transfer.md); each writes PC itself (40_cycle.md R96). The
conditions are the spec's own (D23; log 18). -/

namespace Sys2Proof.Machine

/-- `if cond then PC <- R[a] else PC <- PC +8 2`; the operand is checked whether or not the jump is taken (R73,
R160). -/
def jumpIf (cond : Bool) (ra : Byte) (s : State) : Result :=
  withReg ra s fun a => if cond then s.setPc (s.reg a) else s.advance 2

/-- JMP (R161). -/
def execJmp (ra : Byte) (s : State) : Result := withReg ra s fun a => s.setPc (s.reg a)

/-- JEQ (R162): E is 1. -/
def execJeq (ra : Byte) (s : State) : Result := jumpIf s.flagE ra s

/-- JNE (R163): E is 0. -/
def execJne (ra : Byte) (s : State) : Result := jumpIf (!s.flagE) ra s

/-- JGT (R164): G is 1. -/
def execJgt (ra : Byte) (s : State) : Result := jumpIf s.flagG ra s

/-- JLT (R165): L is 1. -/
def execJlt (ra : Byte) (s : State) : Result := jumpIf s.flagL ra s

/-- CALL (R166): the target is read before the return address, PC + 2, is pushed. -/
def execCall (ra : Byte) (s : State) : Result :=
  withReg ra s fun a =>
    if s.pushFits 1 then (s.push (s.pc + 2)).setPc (s.reg a)
    else s.raiseFault .stackOverflow s.sp

/-- RET (R167). -/
def execRet (s : State) : Result :=
  .next (if s.popFits 1 then s.popPc else s.raiseFault .stackUnderflow s.sp)

end Sys2Proof.Machine
end

