-- ==== Sys2Proof/Machine/DataMovement.lean ====
section
/-! DEFINITION. The data movement instructions (42_data_movement.md): the only addressing mode is register indirect. -/

namespace Sys2Proof.Machine

/-- LDI (R140): operand B is the immediate, never checked (R74). -/
def execLdi (ra imm8 : Byte) (s : State) : Result :=
  withReg ra s fun a => (s.setReg a imm8).advance 3

/-- LD (R141): the address is read before the destination is written (R97). -/
def execLd (ra rb : Byte) (s : State) : Result :=
  withRegs ra rb s fun a b => (s.setReg a (s.readMem (s.reg b))).advance 3

/-- The address ST stores to: the value of its address register (R142). -/
def State.storeAddr (s : State) (a : RegIdx) : Byte := s.reg a

/-- ST (R142): the address register comes first. -/
def execSt (ra rb : Byte) (s : State) : Result :=
  withRegs ra rb s fun a b => (s.writeMem (s.storeAddr a) (s.reg b)).advance 3

end Sys2Proof.Machine
end

