-- ==== Sys2Proof/Machine/Output.lean ====
section
/-! DEFINITION. The output instructions (45_io.md): each appends one event to the trace (R180). -/

namespace Sys2Proof.Machine

/-- PRN (R181). -/
def execPrn (ra : Byte) (s : State) : Result :=
  withReg ra s fun a => (s.emit (.dec (s.reg a))).advance 2

/-- PRA (R182). -/
def execPra (ra : Byte) (s : State) : Result :=
  withReg ra s fun a => (s.emit (.char (s.reg a))).advance 2

end Sys2Proof.Machine
end

