-- ==== Sys2Proof/Machine/Stack.lean ====
section
/-! DEFINITION. PUSH and POP (43_stack.md). -/

namespace Sys2Proof.Machine

/-- The byte PUSH stores: the register's value, or operand A itself under PUSH_DATA = index (R152, D17). DEDUCED
(unsafe; log 20): the index is the whole operand byte, under REG_INDEX_MODE = mask3 too. -/
def State.pushedByte (s : State) (ra : Byte) (a : RegIdx) : Byte :=
  match s.cfg.pushData with
  | .value => s.reg a
  | .index => ra

/-- The R7 mirror of PUSH (R153). -/
def State.mirror (s : State) (v : Byte) : State :=
  match s.cfg.pushMirrorsR7 with
  | true => s.setReg 7 v
  | false => s

/-- PUSH (R152, R153). -/
def execPush (ra : Byte) (s : State) : Result :=
  withReg ra s fun a =>
    if s.pushFits 1 then ((s.push (s.pushedByte ra a)).mirror (s.pushedByte ra a)).advance 2
    else s.raiseFault .stackOverflow s.sp

/-- POP (R154). -/
def execPop (ra : Byte) (s : State) : Result :=
  withReg ra s fun a =>
    if s.popFits 1 then (s.popReg a).advance 2
    else s.raiseFault .stackUnderflow s.sp

end Sys2Proof.Machine
end

