-- ==== Sys2Proof/Machine/System.lean ====
section
/-! DEFINITION. INT, IRET, HLT, NOP, the reserved class and unknown opcode bytes (46_system.md). -/

namespace Sys2Proof.Machine

/-- INT (R190): the line becomes pending and PC advances; a number above 7 raises BAD_INTERRUPT (R205, D14; log 17). -/
def execInt (ra : Byte) (s : State) : Result :=
  withReg ra s fun a =>
    if h : (s.reg a).toNat < 8 then (s.raiseLine ⟨(s.reg a).toNat, h⟩).advance 2
    else s.raiseFault .badInterrupt (s.reg a)

/-- IRET (R191): its nine pops are range-checked first (R156). -/
def execIret (s : State) : Result :=
  .next (if s.popFits frameSize then interruptReturn s else s.raiseFault .stackUnderflow s.sp)

/-- HLT (R192). -/
def execHlt (s : State) : Result := .next ({ s with halted := true }.advance 1)

/-- NOP (R193). -/
def execNop (s : State) : Result := .next (s.advance 1)

/-- A reserved opcode byte (R195): a no-op of four bytes, or RESERVED_OPCODE, by AA3_MODE (R80, D16; log 5). -/
def execReservedAa3 (opcode : Byte) (s : State) : Result :=
  match s.cfg.aa3Mode with
  | .nop => .next (s.advance 4)
  | .fault => .next (s.raiseFault .reservedOpcode opcode)

/-- An unknown opcode byte (R194): a no-op of `1 + AA` bytes. -/
def execUnknown (opcode : Byte) (s : State) : Result := .next (s.advance (instrLength opcode))

end Sys2Proof.Machine
end

