-- ==== Sys2Proof/Machine/Dispatch.lean ====
section
/-! DEFINITION. Dispatch by the instruction's identity (40_cycle.md R94): one arm per instruction. -/

namespace Sys2Proof.Machine

def exec (i : Instr) (s : State) : Host.Outcome State Fault Refusal :=
  match i with
  | .nop => Sys2Proof.Machine.execNop s
  | .hlt => Sys2Proof.Machine.execHlt s
  | .ret => Sys2Proof.Machine.execRet s
  | .iret => Sys2Proof.Machine.execIret s
  | .pra ra => Sys2Proof.Machine.execPra ra s
  | .prn ra => Sys2Proof.Machine.execPrn ra s
  | .call ra => Sys2Proof.Machine.execCall ra s
  | .int ra => Sys2Proof.Machine.execInt ra s
  | .pop ra => Sys2Proof.Machine.execPop ra s
  | .push ra => Sys2Proof.Machine.execPush ra s
  | .jmp ra => Sys2Proof.Machine.execJmp ra s
  | .jeq ra => Sys2Proof.Machine.execJeq ra s
  | .jne ra => Sys2Proof.Machine.execJne ra s
  | .jlt ra => Sys2Proof.Machine.execJlt ra s
  | .jgt ra => Sys2Proof.Machine.execJgt ra s
  | .not ra => Sys2Proof.Machine.execNot ra s
  | .inc ra => Sys2Proof.Machine.execInc ra s
  | .dec ra => Sys2Proof.Machine.execDec ra s
  | .ld ra rb => Sys2Proof.Machine.execLd ra rb s
  | .ldi ra imm8 => Sys2Proof.Machine.execLdi ra imm8 s
  | .st ra rb => Sys2Proof.Machine.execSt ra rb s
  | .cmp ra rb => Sys2Proof.Machine.execCmp ra rb s
  | .add ra rb => Sys2Proof.Machine.execAdd ra rb s
  | .sub ra rb => Sys2Proof.Machine.execSub ra rb s
  | .mul ra rb => Sys2Proof.Machine.execMul ra rb s
  | .div ra rb => Sys2Proof.Machine.execDiv ra rb s
  | .mod ra rb => Sys2Proof.Machine.execMod ra rb s
  | .or ra rb => Sys2Proof.Machine.execOr ra rb s
  | .xor ra rb => Sys2Proof.Machine.execXor ra rb s
  | .and ra rb => Sys2Proof.Machine.execAnd ra rb s
  | .reservedAa3 opcode => Sys2Proof.Machine.execReservedAa3 opcode s

end Sys2Proof.Machine
end

