-- ==== Sys2Proof/Machine/Step.lean ====
section
/-! DEFINITION. One cycle of the machine (40_cycle.md R90). -/

namespace Sys2Proof.Machine

/-- Run what the latched bytes mean (R93, R94); an unknown opcode byte goes to its own rule (R194). -/
def execDecoded (d : Decoded) (s : State) : Host.Outcome State Fault Refusal :=
  match d with
  | .instr i => exec i s
  | .unknown opcode => execUnknown opcode s

/-- `cycle()` (R90): a halted machine has no cycle, and its step changes nothing (R91; log 14); otherwise the cycle is one interrupt entry, if a
line is to be taken (R214), or one fetch, decode and execution (R92 to R96). -/
def step (s : State) : Host.Outcome State Fault Refusal :=
  match s.halted with
  | true => .next s
  | false =>
    match s.takenLine with
    | some n => .next (interruptEntry n s)
    | none => execDecoded (decode s.cfg.opcodes s.fetch.ir s.fetch.opa s.fetch.opb) s.fetch

/-- `s` with an instruction, its bits numbered as the opcode table numbers them, stored where `step` fetches next; the
program is loaded from outside the machine (R244; log 25). -/
def State.withFetchWord (s : State) (nbits w : Nat) : State := s.readyToFetch.placeAtPc (tableBytes nbits w)

end Sys2Proof.Machine
end

