-- ==== Sys2Proof/Machine/HostInterface.lean ====
section
/-! DEFINITION. What the host can do to the core (60_exceptions.md R228, R229; 70_reset_and_hazards.md R243, R244), each
move between cycles. `raise(n)` is `State.raiseLine` (Ops.lean). Which move comes when is left open (U15; log 24). -/

namespace Sys2Proof.Machine

/-- The program loader: the bytes of an image stored from `addr` up, before the first cycle (R244). -/
def State.load (s : State) (addr : Byte) (image : List Byte) : State := { s with mem := s.mem.writeBytes addr image }

/-- `set_mask(m)`: `IM <- m` (R228). -/
def State.setMask (s : State) (m : Byte) : State := { s with im := m }

/-- The machine at its launch: reset (R240) with a choice of the open parameters, the initial mask IM0 (R32, R242) and
the launch image MEM0 (R243), any memory at all. -/
def State.launch (cfg : Config) (im0 : Byte) (mem0 : Memory) : State :=
  { State.reset with cfg := cfg, im := im0, mem := mem0 }

/-- The moves of a run: a cycle of the core, or an action of the host between cycles (R228). -/
inductive Move where
  | cycle
  | raise (n : Line)
  | setMask (m : Byte)
  deriving DecidableEq, Repr

/-- One move (R228). DESIGN CHOICE (unsafe; log 28): the host's two actions write IS and IM of a halted machine too; the
spec says only "between cycles" (R228) and leaves what the host does after the end of a run open (R100). -/
def applyMove (move : Move) (s : State) : Result :=
  match move with
  | .cycle => step s
  | .raise n => .next (s.raiseLine n)
  | .setMask m => .next (s.setMask m)

/-- The moves of a list, first to last, stopping where a move answers no next state. -/
def applyMoves : List Move → State → Result
  | [], s => .next s
  | m :: ms, s =>
    match applyMove m s with
    | .next t => applyMoves ms t
    | .fault f => .fault f
    | .refused r => .refused r

end Sys2Proof.Machine
end

