-- ==== Sys2Proof/Safety.lean ====
section
/-! DEFINITION. What counts as a safe run, in the terms the statements use: the invariant of every reachable state,
reachability under any schedule of the host, the shapes of an operand's rule and of a stack's range, and frames. -/

namespace Sys2Proof.Machine

/-- The invariant of the LS-8: memory keeps its canonical form, OPCODE_TABLE is legal (R77), under STACK_OOR = fault
the stack pointer is at most 244 (R27), and a machine with a fault record is halted (R37). -/
structure State.Inv (s : State) : Prop where
  memWf        : s.mem.wf = true
  tableValid   : s.cfg.opcodes.valid = true
  spInRange    : s.cfg.stackOor = .fault → s.sp.toNat ≤ 244
  faultHalted  : s.fault ≠ none → s.halted = true

/-- The states a run can reach: a launch with any legal parameters, mask and image, then moves of the core and of the
host in any order (R228, U15). -/
inductive Reachable : State → Prop where
  | launch (cfg : Config) (im0 : Byte) (mem0 : Memory) (hTable : cfg.opcodes.valid = true) (hMem : mem0.wf = true) :
      Reachable (State.launch cfg im0 mem0)
  | move (m : Move) (s t : State) (hs : Reachable s) (hm : applyMove m s = .next t) : Reachable t

/-- The state in which an instruction's fault leaves the machine (R98, R207): halted, with the record, and otherwise
as it was. -/
def State.faulted (s : State) (code : FaultCode) (info : Byte) : State :=
  { s with halted := true, fault := some { code := code, pc := s.pc, opcode := some s.ir, info := info } }

/-- Instruction `i` with one register operand, in state `s`: an operand byte that names no register raises
BAD_REGISTER, any other answers `effect` of the operand byte and the register it names. -/
def OneRegRule (i : Byte → Instr) (s : State) (effect : Byte → RegIdx → State) : Prop :=
  ∀ ra : Byte,
    (regIndex s.cfg ra = none → exec (i ra) s = .next (s.faulted .badRegister ra)) ∧
    (∀ a, regIndex s.cfg ra = some a → exec (i ra) s = .next (effect ra a))

/-- Instruction `i` with two register operands, in state `s`: operand A is checked first, then operand B, and two good
operands answer `effect` of operand B's byte and the two registers. -/
def TwoRegRule (i : Byte → Byte → Instr) (s : State) (effect : Byte → RegIdx → RegIdx → State) : Prop :=
  ∀ ra rb : Byte,
    (regIndex s.cfg ra = none → exec (i ra rb) s = .next (s.faulted .badRegister ra)) ∧
    (∀ a, regIndex s.cfg ra = some a → regIndex s.cfg rb = none →
      exec (i ra rb) s = .next (s.faulted .badRegister rb)) ∧
    (∀ a b, regIndex s.cfg ra = some a → regIndex s.cfg rb = some b →
      exec (i ra rb) s = .next (effect rb a b))

/-- `k` pushes are legal (R156). -/
def State.HasRoom (s : State) (k : Nat) : Prop := s.cfg.stackOor = .wrap ∨ (k ≤ s.sp.toNat ∧ s.sp.toNat ≤ 244)

/-- `k` pops are legal (R156). -/
def State.Holds (s : State) (k : Nat) : Prop := s.cfg.stackOor = .wrap ∨ s.sp.toNat + k ≤ 244

/-- The cycle's start takes no interrupt (R214). -/
def State.NoInterrupt (s : State) : Prop := s.iip = true ∨ s.im &&& s.is = 0

/-- What the bytes at PC mean (R92, R93). -/
def State.decoded (s : State) : Decoded :=
  decode s.cfg.opcodes (s.readMem s.pc) (s.readMem (s.pc + 1)) (s.readMem (s.pc + 2))

/-- The register operand bytes of an instruction, operand A first (R72, R73). -/
def regOperands : Instr → List Byte
  | .nop | .hlt | .ret | .iret | .reservedAa3 _ => []
  | .pra ra | .prn ra | .call ra | .int ra | .pop ra | .push ra => [ra]
  | .jmp ra | .jeq ra | .jne ra | .jlt ra | .jgt ra => [ra]
  | .not ra | .inc ra | .dec ra | .ldi ra _ => [ra]
  | .ld ra rb | .st ra rb | .cmp ra rb => [ra, rb]
  | .add ra rb | .sub ra rb | .mul ra rb | .div ra rb | .mod ra rb => [ra, rb]
  | .or ra rb | .xor ra rb | .and ra rb => [ra, rb]

/-- The instructions of a list executed one after another, stopping where one answers no next state. -/
def execAll : List Instr → State → Result
  | [], s => .next s
  | i :: rest, s =>
    match exec i s with
    | .next t => execAll rest t
    | .fault f => .fault f
    | .refused r => .refused r

/-- Every general register outside `changed` is the same in `t` as in `s`. -/
def RegsSameExcept (changed : RegIdx → Prop) (s t : State) : Prop := ∀ r, ¬ changed r → t.reg r = s.reg r

/-- Every byte of memory outside `changed` reads the same in `t` as in `s`. -/
def BytesSameExcept (changed : Byte → Prop) (s t : State) : Prop := ∀ x, ¬ changed x → t.readMem x = s.readMem x

/-- Every special register, latch, event of the output and parameter is the same in `t` as in `s`. -/
structure SpecialsSame (s t : State) : Prop where
  sp  : t.sp = s.sp
  fl  : t.fl = s.fl
  im  : t.im = s.im
  is  : t.is = s.is
  iip : t.iip = s.iip
  ir  : t.ir = s.ir
  opa : t.opa = s.opa
  opb : t.opb = s.opb
  out : t.out = s.out
  cfg : t.cfg = s.cfg

/-- The run status is the same in `t` as in `s`, unless the instruction raised a fault (R98). -/
def StatusSame (s t : State) : Prop :=
  (t.halted = s.halted ∧ t.fault = s.fault) ∨ ∃ code info, t = s.faulted code info

/-- The condition under which an instruction at state `s` may leave each code, with its info (R201 to R206). -/
def mayRaise (i : Instr) (s : State) (info : Byte) : FaultCode → Prop
  | .divideByZero => ∃ ra b, (i = .div ra info ∨ i = .mod ra info) ∧ regIndex s.cfg info = some b ∧ s.reg b = 0
  | .stackOverflow => (∃ ra, i = .push ra ∨ i = .call ra) ∧ info = s.sp ∧ ¬ s.HasRoom 1
  | .stackUnderflow => info = s.sp ∧ ((((∃ ra, i = .pop ra) ∨ i = .ret) ∧ ¬ s.Holds 1) ∨ (i = .iret ∧ ¬ s.Holds 9))
  | .badRegister => info ∈ regOperands i ∧ 8 ≤ info.toNat ∧ s.cfg.regIndexMode = .fault
  | .badInterrupt => ∃ ra a, i = .int ra ∧ regIndex s.cfg ra = some a ∧ info = s.reg a ∧ 8 ≤ info.toNat
  | .reservedOpcode => i = .reservedAa3 info ∧ s.cfg.aa3Mode = .fault

end Sys2Proof.Machine
end

