-- ==== Sys2Proof/Certificates/Slice0/Obligations.lean ====
section
/-! DEFINITION. The statements about the LS-8 model, each a `Prop` that says what a rule of spec/ says. A docstring names
the spec's own decisions (D<n>) and the model's log entries a statement rests on. An opcode byte is always that of table
T1 under T1 itself, as the instruction's rule gives it; that the machine's table is T1 is log 1 and in no statement. -/

open Sys2Proof Sys2Proof.Machine

/-! ### Encoding (30_encoding.md) -/

/-- Under every legal OPCODE_TABLE, decoding the bytes of a well-formed instruction, whatever follows them in memory,
gives the instruction back (R72, R75, R84). -/
def Obligations.DecodeOfEncodeGivesInstruction : Prop :=
  ∀ (t : OpcodeTable) (i : Instr) (rest : List Byte), t.valid = true → i.wf = true →
    decodeBytes t (encode t i ++ rest) = .instr i

/-- Under every legal OPCODE_TABLE, an instruction the decoder reads is well formed, and encoding it gives back the
bytes it was read from, `1 + AA` of them; the reserved class keeps its opcode byte (R70, R72, R80). The reserved class
is one instruction of the model that keeps its byte: log 22. -/
def Obligations.EncodeOfDecodedGivesBytes : Prop :=
  ∀ (t : OpcodeTable) (ir opa opb : Byte) (i : Instr), t.valid = true → decode t ir opa opb = .instr i →
    i.wf = true ∧
    (i.mnemonic ≠ none → encode t i = [ir, opa, opb].take (1 + ir.toNat / 64)) ∧
    (i.mnemonic = none → i = .reservedAa3 ir ∧ ir.toNat / 64 = 3)

/-- Words written out from table T1 (R76) and the formats (R72), at least one of each family, and the instructions
they stand for. T1 is the spec's general knowledge (R76, D1): log 1. -/
def Obligations.WrittenWordsDecode : Prop :=
  decode .t1 0b10101000 0b00000001 0b00000010 = .instr (.add 1 2) ∧
  decode .t1 0b10100000 0b00000011 0b00000100 = .instr (.cmp 3 4) ∧
  decode .t1 0b01110000 0b00000101 0b11111111 = .instr (.not 5) ∧
  decode .t1 0b10011001 0b00000110 0b10000001 = .instr (.ldi 6 0x81) ∧
  decode .t1 0b10011010 0b00000111 0b00000000 = .instr (.st 7 0) ∧
  decode .t1 0b01001101 0b00000001 0b00000000 = .instr (.push 1) ∧
  decode .t1 0b01010011 0b00000010 0b00000000 = .instr (.jlt 2) ∧
  decode .t1 0b01010100 0b00000010 0b00000000 = .instr (.jgt 2) ∧
  decode .t1 0b00001001 0b00000010 0b00000000 = .instr .ret ∧
  decode .t1 0b01000010 0b00000011 0b00000000 = .instr (.pra 3) ∧
  decode .t1 0b01001010 0b00000100 0b00000000 = .instr (.int 4) ∧
  decode .t1 0b00001011 0b00000100 0b00000000 = .instr .iret ∧
  decode .t1 0b11000101 0b00000000 0b00000000 = .instr (.reservedAa3 0xC5) ∧
  decode .t1 0b10100001 0b00000000 0b00000000 = .unknown 0xA1

/-- The decoder's four outputs for every byte and every legal table: AA and the ALU bit are read from the byte, the
identity is the mnemonic whose byte it is, and only CMP's byte sets flags; dispatch is by the identity (R75). The
`setsFlags` clause is the spec's decision D30. -/
def Obligations.DecoderReadsTheOpcodeByte : Prop :=
  ∀ (t : OpcodeTable) (ir : Byte), t.valid = true →
    (decodeOpcode t ir).argCount.toNat = ir.toNat / 64 ∧
    ((decodeOpcode t ir).isALUOp = true ↔ ir.toNat / 32 % 2 = 1) ∧
    ((decodeOpcode t ir).setsFlags = true ↔ ir = t.cmp) ∧
    (∀ m, (decodeOpcode t ir).ident = some m ↔ t.byteOf m = ir) ∧
    ((decodeOpcode t ir).ident = none ↔ ∀ m, t.byteOf m ≠ ir) ∧
    (∀ m opa opb, (decodeOpcode t ir).ident = some m → decode t ir opa opb = .instr (m.instr opa opb))

/-- The latched bytes that an instruction does not use decide nothing: OPA and OPB after an opcode byte with AA = 0 or
AA = 3, OPB after one with AA = 1 (R84, R195). -/
def Obligations.UnusedLatchedBytesDecideNothing : Prop :=
  ∀ (t : OpcodeTable) (ir a b a' b' : Byte), t.valid = true →
    (ir.toNat / 64 = 0 → decode t ir a b = decode t ir a' b') ∧
    (ir.toNat / 64 = 3 → decode t ir a b = decode t ir a' b') ∧
    (ir.toNat / 64 = 1 → decode t ir a b = decode t ir a b')

/-! ### The cycle (40_cycle.md) -/

/-- A running machine that takes no interrupt latches the bytes at PC, PC + 1 and PC + 2 and runs what they mean; when
they are an instruction's, the step is `exec` of it at the latched state (R90, R92 to R94). -/
def Obligations.StepRunsDecodedInstruction : Prop :=
  ∀ s : State, s.halted = false → s.NoInterrupt →
    (∀ i, s.decoded = .instr i →
      step s = exec i { s with ir := s.readMem s.pc, opa := s.readMem (s.pc + 1), opb := s.readMem (s.pc + 2) }) ∧
    step s = execDecoded s.decoded
      { s with ir := s.readMem s.pc, opa := s.readMem (s.pc + 1), opb := s.readMem (s.pc + 2) }

/-- A halted machine does not change, whatever is pending (R91). That a step of a halted machine answers the same
state is the model's choice, log 14; that nothing pending ends it, D29. -/
def Obligations.HaltedMachineDoesNotChange : Prop :=
  ∀ s : State, s.halted = true → step s = .next s

/-- An unknown opcode byte with AA below 3 advances PC by `1 + AA` and changes nothing else but the latches (R79,
R194). -/
def Obligations.UnknownOpcodeOnlyAdvancesPc : Prop :=
  ∀ s : State, s.halted = false → s.NoInterrupt → (∀ m, s.cfg.opcodes.byteOf m ≠ s.readMem s.pc) →
    (s.readMem s.pc).toNat / 64 < 3 →
    step s = .next { s with
      ir := s.readMem s.pc
      opa := s.readMem (s.pc + 1)
      opb := s.readMem (s.pc + 2)
      pc := BitVec.ofNat 8 ((s.pc.toNat + (1 + (s.readMem s.pc).toNat / 64)) % 256) }

/-- A reserved opcode byte, 0xC0 to 0xFF, decodes to its instruction under every legal table and, by AA3_MODE, only
advances PC by 4 or raises RESERVED_OPCODE with the byte (R80, R195, R206). Rests on the spec's decision D16 (log 5).
-/
def Obligations.ReservedOpcodeFollowsAa3Mode : Prop :=
  ∀ (s : State) (opcode opa opb : Byte), s.cfg.opcodes.valid = true →
    (0xC0 ≤ opcode.toNat → decode s.cfg.opcodes opcode opa opb = .instr (.reservedAa3 opcode)) ∧
    (s.cfg.aa3Mode = .nop → exec (.reservedAa3 opcode) s = .next { s with pc := s.pc + 4 }) ∧
    (s.cfg.aa3Mode = .fault → exec (.reservedAa3 opcode) s = .next (s.faulted .reservedOpcode opcode))

/-- Every cycle answers a next state: no state, byte or operand stops the machine (R75, R79, R98). That a fault is a
next state is the model's choice: log 14. -/
def Obligations.EveryCycleAnswers : Prop :=
  ∀ s : State, ∃ t, step s = .next t

/-! ### ALU instructions (41_alu.md) -/

/-- ADD, SUB, MUL: the result modulo 256 into `R[a]`, nothing else but PC + 3 (R112, R113, R114). -/
def Obligations.AddSubMulWrapModulo256 : Prop :=
  ∀ s : State,
    TwoRegRule .add s (fun _ a b => { s with
      regs := s.regs.set a (BitVec.ofNat 8 (((s.reg a).toNat + (s.reg b).toNat) % 256)), pc := s.pc + 3 }) ∧
    TwoRegRule .sub s (fun _ a b => { s with
      regs := s.regs.set a (BitVec.ofNat 8 (((s.reg a).toNat + 256 - (s.reg b).toNat) % 256)), pc := s.pc + 3 }) ∧
    TwoRegRule .mul s (fun _ a b => { s with
      regs := s.regs.set a (BitVec.ofNat 8 (((s.reg a).toNat * (s.reg b).toNat) % 256)), pc := s.pc + 3 }) ∧
    (∀ ra rb, encode .t1 (.add ra rb) = [0xA8, ra, rb] ∧ encode .t1 (.sub ra rb) = [0xA9, ra, rb] ∧
      encode .t1 (.mul ra rb) = [0xAA, ra, rb])

/-- DIV and MOD: the unsigned quotient and remainder for a nonzero divisor; a zero divisor halts with DIVIDE_BY_ZERO
and operand B as info, nothing written; a bad register operand comes first (R115, R116, R201, R208). Codes and
"nothing written" are the spec's decision D19 (log 21), BAD_REGISTER D15 (log 4); that the info is the operand byte
under mask3 too is the model's reading, log 20. -/
def Obligations.DivModUnsignedOrFault : Prop :=
  ∀ (s : State) (ra rb : Byte),
    (regIndex s.cfg ra = none →
      exec (.div ra rb) s = .next (s.faulted .badRegister ra) ∧
      exec (.mod ra rb) s = .next (s.faulted .badRegister ra)) ∧
    (∀ a, regIndex s.cfg ra = some a → regIndex s.cfg rb = none →
      exec (.div ra rb) s = .next (s.faulted .badRegister rb) ∧
      exec (.mod ra rb) s = .next (s.faulted .badRegister rb)) ∧
    (∀ a b, regIndex s.cfg ra = some a → regIndex s.cfg rb = some b → (s.reg b).toNat = 0 →
      exec (.div ra rb) s = .next (s.faulted .divideByZero rb) ∧
      exec (.mod ra rb) s = .next (s.faulted .divideByZero rb)) ∧
    (∀ a b, regIndex s.cfg ra = some a → regIndex s.cfg rb = some b → (s.reg b).toNat ≠ 0 →
      exec (.div ra rb) s = .next { s with
        regs := s.regs.set a (BitVec.ofNat 8 ((s.reg a).toNat / (s.reg b).toNat)), pc := s.pc + 3 } ∧
      exec (.mod ra rb) s = .next { s with
        regs := s.regs.set a (BitVec.ofNat 8 ((s.reg a).toNat % (s.reg b).toNat)), pc := s.pc + 3 }) ∧
    encode .t1 (.div ra rb) = [0xAB, ra, rb] ∧ encode .t1 (.mod ra rb) = [0xAC, ra, rb]

/-- INC, DEC, NOT: the result modulo 256 into `R[a]`, nothing else but PC + 2 (R117, R118, R123). -/
def Obligations.IncDecNotWriteOneRegister : Prop :=
  ∀ s : State,
    OneRegRule .inc s (fun _ a => { s with
      regs := s.regs.set a (BitVec.ofNat 8 (((s.reg a).toNat + 1) % 256)), pc := s.pc + 2 }) ∧
    OneRegRule .dec s (fun _ a => { s with
      regs := s.regs.set a (BitVec.ofNat 8 (((s.reg a).toNat + 255) % 256)), pc := s.pc + 2 }) ∧
    OneRegRule .not s (fun _ a => { s with
      regs := s.regs.set a (BitVec.ofNat 8 (255 - (s.reg a).toNat)), pc := s.pc + 2 }) ∧
    (∀ ra, encode .t1 (.inc ra) = [0x78, ra] ∧ encode .t1 (.dec ra) = [0x79, ra] ∧ encode .t1 (.not ra) = [0x70, ra])

/-- AND, OR, XOR: the bitwise result into `R[a]`, nothing else but PC + 3 (R120, R121, R122). -/
def Obligations.AndOrXorAreBitwise : Prop :=
  ∀ s : State,
    TwoRegRule .and s (fun _ a b => { s with
      regs := s.regs.set a (s.reg a &&& s.reg b), pc := s.pc + 3 }) ∧
    TwoRegRule .or s (fun _ a b => { s with
      regs := s.regs.set a (s.reg a ||| s.reg b), pc := s.pc + 3 }) ∧
    TwoRegRule .xor s (fun _ a b => { s with
      regs := s.regs.set a (s.reg a ^^^ s.reg b), pc := s.pc + 3 }) ∧
    (∀ ra rb, encode .t1 (.and ra rb) = [0xB3, ra, rb] ∧ encode .t1 (.or ra rb) = [0xB1, ra, rb] ∧
      encode .t1 (.xor ra rb) = [0xB2, ra, rb])

/-- CMP writes all of FL: exactly one of L, G, E is set, by the unsigned comparison, and bits 7 to 3 are 0; no
register and no memory changes (R119). That CMP clears the other bits is the spec's decision D5 (log 10). -/
def Obligations.CmpSetsExactlyOneFlag : Prop :=
  ∀ s : State,
    TwoRegRule .cmp s (fun _ a b => { s with
      fl := if (s.reg a).toNat < (s.reg b).toNat then 0b100 else if (s.reg a).toNat = (s.reg b).toNat then 0b001
        else 0b010
      pc := s.pc + 3 }) ∧
    (∀ ra rb, encode .t1 (.cmp ra rb) = [0xA0, ra, rb])

/-! ### Data movement (42_data_movement.md) and memory (20_memory.md) -/

/-- LDI writes its immediate byte as it is, LD the byte at the address its second register holds; nothing else but
PC + 3 (R140, R141). -/
def Obligations.LdiLdWriteTheirDestination : Prop :=
  ∀ s : State,
    (∀ imm8, OneRegRule (fun ra => .ldi ra imm8) s (fun _ a => { s with
      regs := s.regs.set a imm8, pc := s.pc + 3 })) ∧
    TwoRegRule .ld s (fun _ a b => { s with
      regs := s.regs.set a (s.readMem (s.reg b)), pc := s.pc + 3 }) ∧
    (∀ ra x, encode .t1 (.ldi ra x) = [0x99, ra, x] ∧ encode .t1 (.ld ra x) = [0x98, ra, x])

/-- ST stores its second register's byte at the address its first register holds, and leaves every other byte and
everything else but PC + 3 as it was (R142). -/
def Obligations.StStoresAtTheAddressRegister : Prop :=
  ∀ s : State, s.mem.wf = true →
    TwoRegRule .st s (fun _ a b => { s with
      mem := (s.writeMem (s.reg a) (s.reg b)).mem, pc := s.pc + 3 }) ∧
    (∀ a b x, (s.writeMem (s.reg a) (s.reg b)).readMem x = if x = s.reg a then s.reg b else s.readMem x) ∧
    (∀ ra rb, encode .t1 (.st ra rb) = [0x9A, ra, rb])

/-- A byte stored by ST is the byte a later LD through the same address register loads (R59). -/
def Obligations.StoreThenLoadReturnsByte : Prop :=
  ∀ (s : State) (ra rb rc : Byte) (a b c : RegIdx), s.mem.wf = true →
    regIndex s.cfg ra = some a → regIndex s.cfg rb = some b → regIndex s.cfg rc = some c →
    ∃ t, execAll [.st ra rb, .ld rc ra] s = .next t ∧ t.reg c = s.reg b

/-- Fetch is coherent with stores: a byte ST writes at the address of the next instruction is the opcode byte the next
cycle latches and decodes (R62). The spec derives R62 from R59 and R92. -/
def Obligations.StoredByteIsFetchedNext : Prop :=
  ∀ (s t : State) (ra rb : Byte) (a b : RegIdx), s.mem.wf = true → s.halted = false → s.NoInterrupt →
    regIndex s.cfg ra = some a → regIndex s.cfg rb = some b → s.reg a = s.pc + 3 →
    exec (.st ra rb) s = .next t →
    step t = execDecoded (decode t.cfg.opcodes (s.reg b) (t.readMem (t.pc + 1)) (t.readMem (t.pc + 2)))
      { t with ir := s.reg b, opa := t.readMem (t.pc + 1), opb := t.readMem (t.pc + 2) }

/-! ### Stack (43_stack.md) -/

/-- PUSH: BAD_REGISTER first; with room, SP moves down, the byte goes to the new SP and, with the mirror, into R7;
without room, STACK_OVERFLOW and nothing written. The byte is `R[a]`, or operand A under PUSH_DATA = index (R152,
R153, R202). Rests on the spec's decisions D4, D17, D18 (logs 3, 6, 7); that the index stored under PUSH_DATA = index
is the operand byte under mask3 too is the model's reading, log 20. -/
def Obligations.PushStoresAndMirrors : Prop :=
  ∀ (s : State) (ra : Byte),
    (regIndex s.cfg ra = none → exec (.push ra) s = .next (s.faulted .badRegister ra)) ∧
    (∀ a, regIndex s.cfg ra = some a → ¬ s.HasRoom 1 → exec (.push ra) s = .next (s.faulted .stackOverflow s.sp)) ∧
    (∀ a v, regIndex s.cfg ra = some a → s.HasRoom 1 → (s.cfg.pushData = .value → v = s.reg a) →
      (s.cfg.pushData = .index → v = ra) →
      exec (.push ra) s = .next { s with
        regs := if s.cfg.pushMirrorsR7 then s.regs.set 7 v else s.regs
        sp := s.sp - 1
        mem := s.mem.write (s.sp - 1) v
        pc := s.pc + 2 }) ∧
    encode .t1 (.push ra) = [0x4D, ra]

/-- POP: BAD_REGISTER first; with a byte on the stack, the byte at SP goes to `R[a]` and SP moves up, memory as it
was; on the empty stack STACK_UNDERFLOW and nothing written (R154, R203). The range is the spec's decision D4 (log 3).
-/
def Obligations.PopLoadsFromTheStack : Prop :=
  ∀ (s : State) (ra : Byte),
    (regIndex s.cfg ra = none → exec (.pop ra) s = .next (s.faulted .badRegister ra)) ∧
    (∀ a, regIndex s.cfg ra = some a → ¬ s.Holds 1 → exec (.pop ra) s = .next (s.faulted .stackUnderflow s.sp)) ∧
    (∀ a, regIndex s.cfg ra = some a → s.Holds 1 →
      exec (.pop ra) s = .next { s with
        regs := s.regs.set a (s.readMem s.sp), sp := s.sp + 1, pc := s.pc + 2 }) ∧
    encode .t1 (.pop ra) = [0x4C, ra]

/-- A PUSH and then a POP copy `R[x]` into `R[y]` and give SP back (R155, first law). The spec derives R155 from R150
to R154; D4, D17, D18 (logs 3, 6, 7). -/
def Obligations.PushThenPopCopies : Prop :=
  ∀ (s : State) (rx ry : Byte) (x y : RegIdx), s.mem.wf = true → s.cfg.pushData = .value → s.HasRoom 1 →
    regIndex s.cfg rx = some x → regIndex s.cfg ry = some y →
    ∃ t, execAll [.push rx, .pop ry] s = .next t ∧ t.reg y = s.reg x ∧ t.sp = s.sp ∧
      (s.cfg.pushMirrorsR7 = true → t.reg 7 = s.reg x)

/-- Two pushes and two pops come back last in, first out; with the mirror, a second push of R7 pushes the first one's
byte (R155, second law). The spec derives R155 from R150 to R154; D4, D17, D18 (logs 3, 6, 7). -/
def Obligations.StackIsLastInFirstOut : Prop :=
  ∀ (s : State) (rx ry ru rv : Byte) (x y u v : RegIdx), s.mem.wf = true → s.cfg.pushData = .value → s.HasRoom 2 →
    regIndex s.cfg rx = some x → regIndex s.cfg ry = some y → regIndex s.cfg ru = some u → regIndex s.cfg rv = some v →
    u ≠ v →
    ∃ t, execAll [.push rx, .push ry, .pop ru, .pop rv] s = .next t ∧ t.sp = s.sp ∧ t.reg v = s.reg x ∧
      t.reg u = if s.cfg.pushMirrorsR7 = true ∧ y = 7 then s.reg x else s.reg y

/-- Under STACK_OOR = fault the empty stack takes 244 pushes, down to address 0, and the 245th raises STACK_OVERFLOW
(R155, third law). The spec derives R155 from R150 to R154; D4 (log 3). -/
def Obligations.StackHolds244Bytes : Prop :=
  ∀ (s : State) (ra : Byte) (a : RegIdx), s.cfg.stackOor = .fault → s.sp = 244 → s.fault = none → s.halted = false →
    regIndex s.cfg ra = some a →
    (∀ k, k ≤ 244 → ∃ t, execAll (List.replicate k (.push ra)) s = .next t ∧ t.sp.toNat = 244 - k ∧ t.fault = none ∧
      t.halted = false) ∧
    ∃ t, execAll (List.replicate 245 (.push ra)) s = .next t ∧ t.halted = true ∧ t.sp = 0 ∧
      ∃ pc opcode, t.fault = some ⟨.stackOverflow, pc, opcode, 0⟩

/-! ### Control transfer (44_control_transfer.md) -/

/-- JMP sets PC to `R[a]`; JEQ does so when bit 0 of FL is 1 and otherwise sets PC + 2; the operand is checked either way
and nothing else changes (R161, R162). -/
def Obligations.JmpJeqSetOnlyPc : Prop :=
  ∀ s : State,
    OneRegRule .jmp s (fun _ a => { s with pc := s.reg a }) ∧
    OneRegRule .jeq s (fun _ a => { s with pc := if s.fl.toNat % 2 = 1 then s.reg a else s.pc + 2 }) ∧
    (∀ ra, encode .t1 (.jmp ra) = [0x50, ra] ∧ encode .t1 (.jeq ra) = [0x51, ra])

/-- JNE, JGT, JLT set PC to `R[a]` when bit 0 of FL is 0, bit 1 is 1, bit 2 is 1, and otherwise PC + 2; the operand is
checked either way and nothing else changes (R163 to R165). The conditions are the spec's decision D23 (log 18). -/
def Obligations.JneJgtJltSetOnlyPc : Prop :=
  ∀ s : State,
    OneRegRule .jne s (fun _ a => { s with pc := if s.fl.toNat % 2 = 0 then s.reg a else s.pc + 2 }) ∧
    OneRegRule .jgt s (fun _ a => { s with pc := if s.fl.toNat / 2 % 2 = 1 then s.reg a else s.pc + 2 }) ∧
    OneRegRule .jlt s (fun _ a => { s with pc := if s.fl.toNat / 4 % 2 = 1 then s.reg a else s.pc + 2 }) ∧
    (∀ ra, encode .t1 (.jne ra) = [0x52, ra] ∧ encode .t1 (.jgt ra) = [0x54, ra] ∧ encode .t1 (.jlt ra) = [0x53, ra])

/-- CALL pushes PC + 2 and jumps to `R[a]`; RET pops PC; out of range they raise STACK_OVERFLOW and STACK_UNDERFLOW
and write nothing (R166, R167, R202, R203). The range is the spec's decision D4 (log 3). -/
def Obligations.CallAndRetUseTheStack : Prop :=
  ∀ s : State,
    (∀ ra, regIndex s.cfg ra = none → exec (.call ra) s = .next (s.faulted .badRegister ra)) ∧
    (∀ ra a, regIndex s.cfg ra = some a → ¬ s.HasRoom 1 →
      exec (.call ra) s = .next (s.faulted .stackOverflow s.sp)) ∧
    (∀ ra a, regIndex s.cfg ra = some a → s.HasRoom 1 →
      exec (.call ra) s = .next { s with
        sp := s.sp - 1, mem := s.mem.write (s.sp - 1) (s.pc + 2), pc := s.reg a }) ∧
    (¬ s.Holds 1 → exec .ret s = .next (s.faulted .stackUnderflow s.sp)) ∧
    (s.Holds 1 → exec .ret s = .next { s with pc := s.readMem s.sp, sp := s.sp + 1 }) ∧
    (∀ ra, encode .t1 (.call ra) = [0x48, ra]) ∧ encode .t1 .ret = [0x09]

/-- A CALL and then a RET come back to the instruction after the CALL, with SP as it was (R166, R167). The range is
the spec's decision D4 (log 3). -/
def Obligations.CallThenRetComesBack : Prop :=
  ∀ (s : State) (ra : Byte) (a : RegIdx), s.mem.wf = true → s.HasRoom 1 → regIndex s.cfg ra = some a →
    ∃ t, execAll [.call ra, .ret] s = .next t ∧ t.pc = s.pc + 2 ∧ t.sp = s.sp ∧ t.regs = s.regs

/-! ### Output (45_io.md) -/

/-- PRN and PRA append one event with the register's byte and change nothing else but PC + 2 (R181, R182). -/
def Obligations.PrnPraAppendOneEvent : Prop :=
  ∀ s : State,
    OneRegRule .prn s (fun _ a => { s with out := s.out ++ [.dec (s.reg a)], pc := s.pc + 2 }) ∧
    OneRegRule .pra s (fun _ a => { s with out := s.out ++ [.char (s.reg a)], pc := s.pc + 2 }) ∧
    (∀ ra, encode .t1 (.prn ra) = [0x43, ra] ∧ encode .t1 (.pra ra) = [0x42, ra])

/-! ### System instructions (46_system.md) -/

/-- INT: BAD_REGISTER first; a number below 8 sets its bit of IS and PC advances by 2; a larger one raises
BAD_INTERRUPT with the number and changes nothing else (R190, R205). Rests on the spec's decision D14 (log 17). -/
def Obligations.IntRaisesOneLine : Prop :=
  ∀ (s : State) (ra : Byte),
    (regIndex s.cfg ra = none → exec (.int ra) s = .next (s.faulted .badRegister ra)) ∧
    (∀ a, regIndex s.cfg ra = some a → 8 ≤ (s.reg a).toNat →
      exec (.int ra) s = .next (s.faulted .badInterrupt (s.reg a))) ∧
    (∀ a, regIndex s.cfg ra = some a → (s.reg a).toNat < 8 →
      exec (.int ra) s = .next { s with is := s.is ||| BitVec.ofNat 8 (2 ^ (s.reg a).toNat), pc := s.pc + 2 }) ∧
    encode .t1 (.int ra) = [0x4A, ra]

/-- IRET: with nine bytes on the stack it pops R6 to R0, FL and PC, adds 9 to SP, clears IIP and changes nothing else;
with fewer it raises STACK_UNDERFLOW and writes nothing (R191). Rests on the spec's decisions D4, D31, D32 (logs 3,
16, 19). -/
def Obligations.IretRestoresTheFrame : Prop :=
  ∀ s : State,
    (¬ s.Holds 9 → exec .iret s = .next (s.faulted .stackUnderflow s.sp)) ∧
    (s.Holds 9 → ∃ t, exec .iret s = .next t ∧
      (∀ r : RegIdx, r.val ≤ 6 → t.reg r = s.readMem (s.sp + BitVec.ofNat 8 (6 - r.val))) ∧
      t.reg 7 = s.reg 7 ∧
      t = { s with
        regs := t.regs, fl := s.readMem (s.sp + 7), pc := s.readMem (s.sp + 8), sp := s.sp + 9, iip := false }) ∧
    encode .t1 .iret = [0x0B]

/-- NOP only advances PC by 1; HLT also halts the machine, with no fault recorded, and no later cycle changes it,
whatever is pending (R192, R193). That a step of a halted machine answers the same state is the model's choice, log
14; that nothing pending ends it is the spec's decision D29. -/
def Obligations.NopAdvancesAndHltHalts : Prop :=
  ∀ s : State,
    exec .nop s = .next { s with pc := s.pc + 1 } ∧
    exec .hlt s = .next { s with halted := true, pc := s.pc + 1 } ∧
    (∀ t, exec .hlt s = .next t → ∀ im is, step { t with im := im, is := is } = .next { t with im := im, is := is }) ∧
    encode .t1 .nop = [0x00] ∧ encode .t1 .hlt = [0x01]

/-! ### Interrupts (60_exceptions.md) -/

/-- At the start of a running machine's cycle, before anything is fetched: with IIP = 0 and a pending enabled line the
cycle is an entry for the lowest such line, the other lines stay pending and, when the frame fits, IIP is 1 after it;
otherwise it is an instruction cycle (R214, R215). -/
def Obligations.InterruptCheckPrecedesFetch : Prop :=
  ∀ s : State, s.halted = false →
    (s.iip = false → s.im &&& s.is ≠ 0 →
      ∃ n : Line, (s.im &&& s.is).getLsbD n = true ∧ (∀ m : Line, m < n → (s.im &&& s.is).getLsbD m = false) ∧
        step s = .next (interruptEntry n s) ∧
        (∀ k : Line, k ≠ n → (interruptEntry n s).is.getLsbD k = s.is.getLsbD k) ∧
        (s.HasRoom 9 → (interruptEntry n s).iip = true)) ∧
    (s.iip = true ∨ s.im &&& s.is = 0 → step s = execDecoded s.decoded s.fetch)

/-- The whole effect of an entry for line `n` whose nine bytes fit: IIP set, the line's IS bit cleared, PC, FL and R0
to R6 on the stack in that order, SP down by 9, PC at the vector, every other byte and everything else as it was
(R216, R217). Rests on the spec's decisions D10, D11, D32 (logs 8, 16). -/
def Obligations.InterruptEntrySavesTheFrame : Prop :=
  ∀ (s : State) (n : Line), s.mem.wf = true → s.halted = false → s.iip = false → (s.im &&& s.is).getLsbD n = true →
    (∀ m : Line, m < n → (s.im &&& s.is).getLsbD m = false) → s.HasRoom 9 →
    ∃ t, step s = .next t ∧
      (∀ k : Line, t.is.getLsbD k = (s.is.getLsbD k && k != n)) ∧
      t.readMem (s.sp - 1) = s.pc ∧
      t.readMem (s.sp - 2) = s.fl ∧
      (∀ r : RegIdx, r.val ≤ 6 → t.readMem (s.sp - 3 - BitVec.ofNat 8 r.val) = s.reg r) ∧
      (∀ x, (∀ k : Fin 9, x ≠ s.sp - 1 - BitVec.ofNat 8 k.val) → t.readMem x = s.readMem x) ∧
      (s.cfg.vectorMode = .indirect → t.pc = t.readMem (0xF8 + BitVec.ofNat 8 n.val)) ∧
      (∀ vaddr, s.cfg.vectorMode = .direct vaddr → t.pc = vaddr[n]) ∧
      t = { s with iip := true, is := t.is, sp := s.sp - 9, mem := t.mem, pc := t.pc }

/-- An entry without room for its nine bytes halts the machine with STACK_OVERFLOW, opcode none and SP as info; IS,
IIP, SP, PC and memory are unchanged (R218, R207). Rests on the spec's decisions D4, D19 (logs 3, 14, 21). -/
def Obligations.InterruptEntryWithoutRoomFaults : Prop :=
  ∀ s : State, s.halted = false → s.iip = false → s.im &&& s.is ≠ 0 → s.cfg.stackOor = .fault →
    s.sp.toNat < 9 ∨ 244 < s.sp.toNat →
    step s = .next { s with halted := true, fault := some ⟨.stackOverflow, s.pc, none, s.sp⟩ }

/-- IRET undoes the entry that came before it: R0 to R7, FL, PC and SP are as they were, interrupts are enabled, and
the taken line stays cleared (R191, R216, R221). Rests on the spec's decisions D11, D32 (log 16). -/
def Obligations.IretUndoesInterruptEntry : Prop :=
  ∀ (s : State) (n : Line), s.mem.wf = true → s.HasRoom 9 →
    ∃ t, exec .iret (interruptEntry n s) = .next t ∧ t.regs = s.regs ∧ t.fl = s.fl ∧ t.pc = s.pc ∧ t.sp = s.sp ∧
      t.iip = false ∧ t.is.getLsbD n = false ∧ t.im = s.im ∧ t.out = s.out

/-- While an interrupt is in progress no cycle takes another: the cycle runs the instruction at PC, nothing pending is
lost, and only IRET ends it (R212, R219, R222). That pending bits stay is the spec's decision D13 (log 16). -/
def Obligations.InterruptsNeverNest : Prop :=
  ∀ s t : State, s.halted = false → s.iip = true → step s = .next t →
    step s = execDecoded s.decoded s.fetch ∧ s.is &&& t.is = s.is ∧ (t.iip = false → s.decoded = .instr .iret)

/-! ### Faults (60_exceptions.md) -/

/-- A fault is precise: an instruction either leaves the fault record as it was, or changes nothing but the halted bit
and the record, which holds its PC and the latched opcode byte; the same for a whole cycle, the latches apart (R98,
R207, R209). Rests on the spec's decision D19 (logs 14, 21); that the latches keep the fetched bytes is the model's
reading, log 15. -/
def Obligations.FaultsArePrecise : Prop :=
  (∀ (i : Instr) (s t : State), exec i s = .next t →
    t.fault = s.fault ∨ ∃ code info, t = { s with halted := true, fault := some ⟨code, s.pc, some s.ir, info⟩ }) ∧
  (∀ s t : State, step s = .next t →
    t.fault = s.fault ∨
    (∃ info, t = { s with halted := true, fault := some ⟨.stackOverflow, s.pc, none, info⟩ }) ∨
    ∃ code info, t = { s.fetch with
      halted := true, fault := some ⟨code, s.pc, some (s.readMem s.pc), info⟩ })

/-- A fault an instruction raises has one of the six causes, met by its own operands and the state before it, and the
info that its code gives (R125, R201 to R206). Rests on the spec's decisions D4, D14, D15, D16, D19 (logs 3, 4, 5, 17,
20, 21). -/
def Obligations.FaultsHaveTheirCause : Prop :=
  ∀ (i : Instr) (s t : State) (r : FaultRecord), s.fault = none → exec i s = .next t → t.fault = some r →
    mayRaise i s r.info r.code

/-- Every register operand of an instruction is checked before any of its effects, operand A first: the first operand
byte above 7 raises BAD_REGISTER under REG_INDEX_MODE = fault, and under mask3 none does (R73, R204, R208). Rests on
the spec's decisions D15, D28 (logs 4, 21). -/
def Obligations.BadRegisterOperandFaultsFirst : Prop :=
  ∀ (i : Instr) (s : State),
    (∀ x, s.cfg.regIndexMode = .fault → (regOperands i).find? (fun b => decide (8 ≤ b.toNat)) = some x →
      exec i s = .next (s.faulted .badRegister x)) ∧
    (∀ t r, s.cfg.regIndexMode = .mask3 → s.fault = none → exec i s = .next t → t.fault = some r →
      r.code ≠ .badRegister)

/-! ### What no cycle, or only some, can change (10_state.md) -/

/-- FL is written by CMP and IRET alone (R30). -/
def Obligations.FlagsChangeOnlyByCmpAndIret : Prop :=
  ∀ s t : State, step s = .next t → t.fl ≠ s.fl →
    s.decoded = .instr .iret ∨ ∃ ra rb, s.decoded = .instr (.cmp ra rb)

/-- No cycle writes IM: only the host's `set_mask` does (R32). No cycle and no host action changes the parameters
(R15). Rests on the spec's decisions D7, D8 (log 11); parameters stand in the state by the model's choice, log 2. That
`set_mask` writes IM of a halted machine too is the model's choice, log 28. -/
def Obligations.MaskIsTheHostsAlone : Prop :=
  (∀ s t : State, step s = .next t → t.im = s.im) ∧
  (∀ (m : Move) (s t : State), applyMove m s = .next t → t.cfg = s.cfg ∧ (t.im ≠ s.im → m = .setMask t.im))

/-- In a cycle a bit of IS is set only by INT, and cleared only by the entry that takes its line (R33, R213). Rests on
the spec's decisions D7, D11, D14 (logs 11, 16, 17). -/
def Obligations.PendingBitsChangeOnlyByIntAndEntry : Prop :=
  ∀ (s t : State) (n : Line), step s = .next t →
    (s.is.getLsbD n = false → t.is.getLsbD n = true →
      ∃ ra a, s.decoded = .instr (.int ra) ∧ regIndex s.cfg ra = some a ∧ (s.reg a).toNat = n.val) ∧
    (s.is.getLsbD n = true → t.is.getLsbD n = false →
      s.halted = false ∧ s.iip = false ∧ (s.im &&& s.is).getLsbD n = true ∧
      (∀ m : Line, m < n → (s.im &&& s.is).getLsbD m = false) ∧ step s = .next (interruptEntry n s))

/-- SP changes only in an interrupt entry and by PUSH, POP, CALL, RET and IRET (R27). A separate 8-bit SP is log 9. -/
def Obligations.StackPointerMovesOnlyByStackOperations : Prop :=
  ∀ s t : State, step s = .next t → t.sp ≠ s.sp →
    (¬ s.NoInterrupt ∧ t.sp = s.sp - 9) ∨
    (∃ ra, s.decoded = .instr (.push ra) ∧ t.sp = s.sp - 1) ∨ (∃ ra, s.decoded = .instr (.call ra) ∧ t.sp = s.sp - 1) ∨
    (∃ ra, s.decoded = .instr (.pop ra) ∧ t.sp = s.sp + 1) ∨ (s.decoded = .instr .ret ∧ t.sp = s.sp + 1) ∨
    (s.decoded = .instr .iret ∧ t.sp = s.sp + 9)

/-- The output trace only grows at its end, by at most one event a cycle, and only by PRN and PRA (R38, R180). The
form of an event is the spec's decision D24 (log 26). -/
def Obligations.OutputIsOnlyAppended : Prop :=
  ∀ s t : State, step s = .next t →
    t.out = s.out ∨ ∃ ra a, regIndex s.cfg ra = some a ∧
      ((s.decoded = .instr (.prn ra) ∧ t.out = s.out ++ [.dec (s.reg a)]) ∨
       (s.decoded = .instr (.pra ra) ∧ t.out = s.out ++ [.char (s.reg a)]))

/-- Once halted, always halted; a fault record is written at most once and never cleared (R36, R37). That a step of a
halted machine answers a state is the model's choice, log 14. -/
def Obligations.HaltAndFaultAreFinal : Prop :=
  ∀ s t : State, step s = .next t →
    (s.halted = true → t.halted = true) ∧ (s.Inv → s.fault ≠ none → t.fault = s.fault ∧ t.halted = true)

/-- The bytes a cycle may write are those of the table: nine stack bytes by an entry, one by PUSH and CALL, the one at
`R[a]` by ST, and none by anything else (R52). The spec derives R52 from the instruction rules. -/
def Obligations.MemoryChangesOnlyWhereTheTableSays : Prop :=
  ∀ (s t : State) (x : Byte), step s = .next t → t.readMem x ≠ s.readMem x →
    (¬ s.NoInterrupt ∧ ∃ k : Fin 9, x = s.sp - 1 - BitVec.ofNat 8 k.val) ∨
    (s.NoInterrupt ∧ ∃ ra a, regIndex s.cfg ra = some a ∧
      ((s.decoded = .instr (.push ra) ∧ x = s.sp - 1) ∨ (s.decoded = .instr (.call ra) ∧ x = s.sp - 1) ∨
       ∃ rb, s.decoded = .instr (.st ra rb) ∧ x = s.reg a))

/-- Two machines that differ only in what the latches IR, OPA and OPB hold before a cycle differ only in them after it
(R35). That they keep their values between cycles is log 15. -/
def Obligations.LatchesAreLoadedBeforeTheyAreRead : Prop :=
  ∀ (s t : State) (ir opa opb : Byte), step s = .next t →
    ∃ t', step { s with ir := ir, opa := opa, opb := opb } = .next t' ∧
      t = { t' with ir := t.ir, opa := t.opa, opb := t.opb }

/-! ### Frames: what an instruction leaves as it was -/

/-- Frame of the instructions that write one general register: every register but the one operand A names, every
special register, and every byte of memory (R110, R111, R140, R141, R52). The fault case is the spec's decision D19
(log 21). -/
def Obligations.RegisterWritingFrame : Prop :=
  ∀ (i : Instr) (s t : State) (ra rb : Byte),
    i = .add ra rb ∨ i = .sub ra rb ∨ i = .mul ra rb ∨ i = .div ra rb ∨ i = .mod ra rb ∨ i = .and ra rb ∨
      i = .or ra rb ∨ i = .xor ra rb ∨ i = .not ra ∨ i = .inc ra ∨ i = .dec ra ∨ i = .ldi ra rb ∨ i = .ld ra rb →
    exec i s = .next t →
    RegsSameExcept (fun r => regIndex s.cfg ra = some r) s t ∧ SpecialsSame s t ∧
      BytesSameExcept (fun _ => False) s t ∧ StatusSame s t

/-- Frame of the instructions that write no general register, no special register but the one named and no memory: CMP
(FL), PRN and PRA (the output), INT (IS), the jumps, NOP, HLT (the halted bit) and the reserved class (R52, R119,
R160, R180, R190, R192, R193, R195). The fault case is the spec's decision D19 (log 21). -/
def Obligations.NoRegisterNoMemoryFrame : Prop :=
  ∀ (i : Instr) (s t : State) (ra rb : Byte), exec i s = .next t →
    (i = .cmp ra rb → SpecialsSame { s with fl := t.fl } t ∧ StatusSame s t) ∧
    (i = .prn ra ∨ i = .pra ra → SpecialsSame { s with out := t.out } t ∧ StatusSame s t) ∧
    (i = .int ra → SpecialsSame { s with is := t.is } t ∧ StatusSame s t) ∧
    (i = .jmp ra ∨ i = .jeq ra ∨ i = .jne ra ∨ i = .jgt ra ∨ i = .jlt ra ∨ i = .nop ∨ i = .reservedAa3 ra →
      SpecialsSame s t ∧ StatusSame s t) ∧
    (i = .hlt → SpecialsSame s t ∧ t.fault = s.fault) ∧
    (i = .cmp ra rb ∨ i = .prn ra ∨ i = .pra ra ∨ i = .int ra ∨ i = .jmp ra ∨ i = .jeq ra ∨ i = .jne ra ∨
      i = .jgt ra ∨ i = .jlt ra ∨ i = .nop ∨ i = .hlt ∨ i = .reservedAa3 ra →
      RegsSameExcept (fun _ => False) s t ∧ BytesSameExcept (fun _ => False) s t)

/-- Frame of the instructions that store a byte: ST (no register), CALL (SP) and PUSH (SP, and R7 with the mirror). ST
stores at the value of the register operand A names and the other two one below SP, the only byte that may change;
with a bad operand no byte does (R52, R142, R152, R166). The fault case is the spec's decision D19 (log 21). -/
def Obligations.StoringFrame : Prop :=
  ∀ (i : Instr) (s t : State) (ra rb : Byte), exec i s = .next t →
    (i = .st ra rb →
      RegsSameExcept (fun _ => False) s t ∧ SpecialsSame s t ∧ StatusSame s t ∧
      (∀ a, regIndex s.cfg ra = some a → ∀ addr, s.storeAddr a = addr →
        BytesSameExcept (fun x => x = addr) s t) ∧
      (regIndex s.cfg ra = none ∨ regIndex s.cfg rb = none → BytesSameExcept (fun _ => False) s t)) ∧
    (i = .call ra →
      RegsSameExcept (fun _ => False) s t ∧ SpecialsSame { s with sp := t.sp } t ∧ StatusSame s t ∧
      (∀ addr, s.pushAddr = addr → BytesSameExcept (fun x => x = addr) s t) ∧
      (regIndex s.cfg ra = none → BytesSameExcept (fun _ => False) s t)) ∧
    (i = .push ra →
      RegsSameExcept (fun r => s.cfg.pushMirrorsR7 = true ∧ r = 7) s t ∧ SpecialsSame { s with sp := t.sp } t ∧
      StatusSame s t ∧
      (∀ addr, s.pushAddr = addr → BytesSameExcept (fun x => x = addr) s t) ∧
      (regIndex s.cfg ra = none → BytesSameExcept (fun _ => False) s t))

/-- Frame of the instructions that pop: POP (the register operand A names, SP), RET (SP) and IRET (R0 to R6, FL, IIP,
SP); none changes a byte of memory (R52, R154, R167, R191). The fault case is the spec's decision D19 (log 21). -/
def Obligations.PoppingFrame : Prop :=
  ∀ (i : Instr) (s t : State) (ra : Byte), exec i s = .next t →
    (i = .pop ra →
      RegsSameExcept (fun r => regIndex s.cfg ra = some r) s t ∧ SpecialsSame { s with sp := t.sp } t) ∧
    (i = .ret → RegsSameExcept (fun _ => False) s t ∧ SpecialsSame { s with sp := t.sp } t) ∧
    (i = .iret →
      RegsSameExcept (fun r => r ≠ 7) s t ∧ SpecialsSame { s with sp := t.sp, fl := t.fl, iip := t.iip } t) ∧
    (i = .pop ra ∨ i = .ret ∨ i = .iret → BytesSameExcept (fun _ => False) s t ∧ StatusSame s t)

/-! ### Reset and the host (70_reset_and_hazards.md, 60_exceptions.md) -/

/-- The values reset gives, at a launch with any parameters, mask IM0 and image MEM0; `State.reset` is a launch
(R240). -/
def Obligations.ResetGivesTheStatedValues : Prop :=
  (∀ (cfg : Config) (im0 : Byte) (mem0 : Memory) (s : State), s = State.launch cfg im0 mem0 →
    (∀ r, s.reg r = 0) ∧ s.pc = 0 ∧ s.sp = 244 ∧ s.fl = 0 ∧ s.im = im0 ∧ s.is = 0 ∧ s.iip = false ∧ s.halted = false ∧
      s.fault = none ∧ s.out = [] ∧ s.mem = mem0) ∧
  ∃ (cfg : Config) (im0 : Byte) (mem0 : Memory), State.reset = State.launch cfg im0 mem0

/-- The first cycle after a launch fetches at address 0; if the host raised an enabled line before it, the first cycle
is that line's entry and saves PC = 0 at address 243 (R241). The spec derives R241 from R240 and R90; D32 (log 16). -/
def Obligations.FirstCycleFetchesAtZero : Prop :=
  ∀ (cfg : Config) (im0 : Byte) (mem0 : Memory) (s : State), s = State.launch cfg im0 mem0 →
    step s = execDecoded (decode cfg.opcodes (s.readMem 0) (s.readMem 1) (s.readMem 2)) s.fetch ∧
    (∀ n : Line, mem0.wf = true → im0.getLsbD n = true →
      ∃ t, step (s.raiseLine n) = .next t ∧ t.readMem 243 = 0 ∧ t.iip = true ∧ t.sp = 235)

/-- The host's actions between cycles: `set_mask(m)` writes IM alone, `raise(n)` sets bit `n` of IS alone, and raising
a pending line again changes nothing (R213, R228). Rests on the spec's decisions D7, D21 (logs 11, 24). That they act
on a halted machine too is the model's choice, log 28. -/
def Obligations.HostActionsTouchOneRegister : Prop :=
  ∀ (s : State) (n : Line) (m : Byte),
    applyMove (.setMask m) s = .next { s with im := m } ∧
    (∃ t, applyMove (.raise n) s = .next t ∧ t = { s with is := t.is } ∧
      (∀ k : Line, t.is.getLsbD k = (s.is.getLsbD k || k == n)) ∧
      applyMove (.raise n) t = .next t)

/-! ### The invariant -/

/-- The invariant holds right after reset. The canonical form of memory is the model's, log 12. -/
def Obligations.InvHoldsAtReset : Prop := State.reset.Inv

/-- Every cycle keeps the invariant: memory in canonical form, a legal OPCODE_TABLE, SP at most 244 under STACK_OOR =
fault, a fault record only in a halted machine (R27, R37, R51, R77). The canonical form of memory is the model's, log
12. -/
def Obligations.StepKeepsInv : Prop :=
  ∀ s t : State, s.Inv → step s = .next t → t.Inv

/-- The invariant holds in every state that any launch and any schedule of cycles and host actions can reach; in
particular SP stays in 0..244 under STACK_OOR = fault (R27). The canonical form of memory in the invariant is the
model's, log 12; the host's moves are logs 24 and 28. -/
def Obligations.ReachableStatesKeepInv : Prop :=
  ∀ s : State, Reachable s → s.Inv ∧ (s.cfg.stackOor = .fault → 0 ≤ s.sp.toNat ∧ s.sp.toNat ≤ 244)
end

