-- ==== Sys2Proof/Laws/Decode.lean ====
section
/-! SUPPORT. The laws of the opcode table, the decoder and the encoder. -/

namespace Sys2Proof

theorem Mnemonic.mem_all (m : Mnemonic) : m ∈ Mnemonic.all := by cases m <;> decide

/-- What a legal table says of one mnemonic (R77). -/
theorem OpcodeTable.valid_iff (t : OpcodeTable) : t.valid = true ↔ ∀ m : Mnemonic,
    argCount (t.byteOf m) = m.format.argCount ∧ isAluOp (t.byteOf m) = m.isAlu ∧
      ∀ n : Mnemonic, t.byteOf m = t.byteOf n → m = n := by
  simp only [OpcodeTable.valid, List.all_eq_true, Bool.and_eq_true, beq_iff_eq, Bool.or_eq_true, bne_iff_ne]
  constructor
  · intro h m
    have hm := h m (Mnemonic.mem_all m)
    exact ⟨hm.1.1, hm.1.2, fun n e => (hm.2 n (Mnemonic.mem_all n)).resolve_left fun ne => ne e⟩
  · intro h m _
    refine ⟨⟨(h m).1, (h m).2.1⟩, fun n _ => ?_⟩
    by_cases e : t.byteOf m = t.byteOf n
    · exact Or.inr ((h m).2.2 n e)
    · exact Or.inl e

theorem OpcodeTable.t1_valid : OpcodeTable.t1.valid = true := by decide +kernel

theorem OpcodeTable.argCount_byteOf (t : OpcodeTable) (h : t.valid = true) (m : Mnemonic) :
    argCount (t.byteOf m) = m.format.argCount := ((t.valid_iff.mp h) m).1

/-- A byte the decoder identifies is the mnemonic's byte. -/
theorem OpcodeTable.byteOf_of_identify (t : OpcodeTable) (b : Byte) (m : Mnemonic) (h : t.identify b = some m) :
    t.byteOf m = b := by
  have := List.find?_some h
  simpa using this

/-- Under a legal table the decoder identifies each mnemonic's byte. -/
theorem OpcodeTable.identify_byteOf (t : OpcodeTable) (h : t.valid = true) (m : Mnemonic) :
    t.identify (t.byteOf m) = some m := by
  cases e : t.identify (t.byteOf m) with
  | none =>
    have := List.find?_eq_none.mp e m (Mnemonic.mem_all m)
    simp at this
  | some n =>
    have hb := t.byteOf_of_identify _ n e
    rw [((t.valid_iff.mp h) n).2.2 m hb]

theorem OpcodeTable.identify_eq_some_iff (t : OpcodeTable) (h : t.valid = true) (b : Byte) (m : Mnemonic) :
    t.identify b = some m ↔ t.byteOf m = b :=
  ⟨t.byteOf_of_identify b m, fun e => e ▸ t.identify_byteOf h m⟩

/-- A byte with AA = 3 is no mnemonic's under a legal table (R77). -/
theorem OpcodeTable.identify_reserved (t : OpcodeTable) (h : t.valid = true) (b : Byte) (hb : argCount b = 3) :
    t.identify b = none := by
  cases e : t.identify b with
  | none => rfl
  | some m =>
    have := t.argCount_byteOf h m
    rw [t.byteOf_of_identify b m e, hb] at this
    cases m <;> simp [Mnemonic.format, Format.argCount] at this

/-- The reserved bytes are 0xC0 to 0xFF (R80). -/
theorem argCount_eq_three_iff (b : Byte) : argCount b = 3 ↔ 0xC0#8 ≤ b := by
  revert b
  decide +kernel

theorem instrLength_eq (b : Byte) : (instrLength b).toNat = 1 + (argCount b).toNat := by
  revert b
  decide +kernel

/-- What the decoder answers, case by case (R75, R79, R80). -/
theorem decode_eq (t : OpcodeTable) (ir a b : Byte) :
    decode t ir a b =
      match t.identify ir with
      | some m => .instr (m.instr a b)
      | none => if argCount ir = 3 then .instr (.reservedAa3 ir) else .unknown ir := rfl

/-- The instruction read from a mnemonic's byte under a legal table. -/
theorem decode_byteOf (t : OpcodeTable) (h : t.valid = true) (m : Mnemonic) (a b : Byte) :
    decode t (t.byteOf m) a b = .instr (m.instr a b) := by
  rw [decode_eq, t.identify_byteOf h m]

theorem decode_reserved (t : OpcodeTable) (h : t.valid = true) (ir a b : Byte) (hr : argCount ir = 3) :
    decode t ir a b = .instr (.reservedAa3 ir) := by
  rw [decode_eq, t.identify_reserved h ir hr]
  simp [hr]

end Sys2Proof
end

