-- ==== Sys2Proof/Laws/State.lean ====
section
/-! SUPPORT. What every update of the state leaves in every field: one lemma a field and update, so that no proof unfolds
a record update. The derived updates (`advance`, `raiseFault`, `popReg`, …) are rewritten into these. -/

namespace Sys2Proof.Machine

/-! ### Derived updates, in terms of the plain ones -/

@[simp] theorem State.advance_eq (s : State) (n : Byte) : s.advance n = s.setPc (s.pc + n) := rfl
@[simp] theorem State.raiseFault_eq (s : State) (c : FaultCode) (i : Byte) :
    s.raiseFault c i = s.haltWith c (some s.ir) i := rfl
@[simp] theorem State.faulted_eq (s : State) (c : FaultCode) (i : Byte) :
    s.faulted c i = s.haltWith c (some s.ir) i := rfl
@[simp] theorem State.popReg_eq (s : State) (r : RegIdx) : s.popReg r = s.dropTop.setReg r s.top := rfl
@[simp] theorem State.popFl_eq (s : State) : s.popFl = s.dropTop.setFl s.top := rfl
@[simp] theorem State.popPc_eq (s : State) : s.popPc = s.dropTop.setPc s.top := rfl
@[simp] theorem State.top_eq (s : State) : s.top = s.readMem s.sp := rfl
@[simp] theorem State.pushAddr_eq (s : State) : s.pushAddr = s.sp - 1 := rfl
@[simp] theorem State.storeAddr_eq (s : State) (a : RegIdx) : s.storeAddr a = s.reg a := rfl

/-! ### `setReg` -/

@[simp] theorem State.setReg_regs (s : State) (r : RegIdx) (v : Byte) : (s.setReg r v).regs = s.regs.set r v := rfl
@[simp] theorem State.setReg_pc (s : State) (r : RegIdx) (v : Byte) : (s.setReg r v).pc = s.pc := rfl
@[simp] theorem State.setReg_sp (s : State) (r : RegIdx) (v : Byte) : (s.setReg r v).sp = s.sp := rfl
@[simp] theorem State.setReg_fl (s : State) (r : RegIdx) (v : Byte) : (s.setReg r v).fl = s.fl := rfl
@[simp] theorem State.setReg_im (s : State) (r : RegIdx) (v : Byte) : (s.setReg r v).im = s.im := rfl
@[simp] theorem State.setReg_is (s : State) (r : RegIdx) (v : Byte) : (s.setReg r v).is = s.is := rfl
@[simp] theorem State.setReg_iip (s : State) (r : RegIdx) (v : Byte) : (s.setReg r v).iip = s.iip := rfl
@[simp] theorem State.setReg_ir (s : State) (r : RegIdx) (v : Byte) : (s.setReg r v).ir = s.ir := rfl
@[simp] theorem State.setReg_opa (s : State) (r : RegIdx) (v : Byte) : (s.setReg r v).opa = s.opa := rfl
@[simp] theorem State.setReg_opb (s : State) (r : RegIdx) (v : Byte) : (s.setReg r v).opb = s.opb := rfl
@[simp] theorem State.setReg_halted (s : State) (r : RegIdx) (v : Byte) : (s.setReg r v).halted = s.halted := rfl
@[simp] theorem State.setReg_fault (s : State) (r : RegIdx) (v : Byte) : (s.setReg r v).fault = s.fault := rfl
@[simp] theorem State.setReg_out (s : State) (r : RegIdx) (v : Byte) : (s.setReg r v).out = s.out := rfl
@[simp] theorem State.setReg_mem (s : State) (r : RegIdx) (v : Byte) : (s.setReg r v).mem = s.mem := rfl
@[simp] theorem State.setReg_cfg (s : State) (r : RegIdx) (v : Byte) : (s.setReg r v).cfg = s.cfg := rfl
@[simp] theorem State.setReg_readMem (s : State) (r : RegIdx) (v : Byte) (x : Byte) :
    (s.setReg r v).readMem x = s.readMem x := rfl

/-! ### `writeMem` -/

@[simp] theorem State.writeMem_regs (s : State) (a v : Byte) : (s.writeMem a v).regs = s.regs := rfl
@[simp] theorem State.writeMem_pc (s : State) (a v : Byte) : (s.writeMem a v).pc = s.pc := rfl
@[simp] theorem State.writeMem_sp (s : State) (a v : Byte) : (s.writeMem a v).sp = s.sp := rfl
@[simp] theorem State.writeMem_fl (s : State) (a v : Byte) : (s.writeMem a v).fl = s.fl := rfl
@[simp] theorem State.writeMem_im (s : State) (a v : Byte) : (s.writeMem a v).im = s.im := rfl
@[simp] theorem State.writeMem_is (s : State) (a v : Byte) : (s.writeMem a v).is = s.is := rfl
@[simp] theorem State.writeMem_iip (s : State) (a v : Byte) : (s.writeMem a v).iip = s.iip := rfl
@[simp] theorem State.writeMem_ir (s : State) (a v : Byte) : (s.writeMem a v).ir = s.ir := rfl
@[simp] theorem State.writeMem_opa (s : State) (a v : Byte) : (s.writeMem a v).opa = s.opa := rfl
@[simp] theorem State.writeMem_opb (s : State) (a v : Byte) : (s.writeMem a v).opb = s.opb := rfl
@[simp] theorem State.writeMem_halted (s : State) (a v : Byte) : (s.writeMem a v).halted = s.halted := rfl
@[simp] theorem State.writeMem_fault (s : State) (a v : Byte) : (s.writeMem a v).fault = s.fault := rfl
@[simp] theorem State.writeMem_out (s : State) (a v : Byte) : (s.writeMem a v).out = s.out := rfl
@[simp] theorem State.writeMem_mem (s : State) (a v : Byte) : (s.writeMem a v).mem = s.mem.write a v := rfl
@[simp] theorem State.writeMem_cfg (s : State) (a v : Byte) : (s.writeMem a v).cfg = s.cfg := rfl
@[simp] theorem State.writeMem_reg (s : State) (a v : Byte) (q : RegIdx) :
    (s.writeMem a v).reg q = s.reg q := rfl

/-! ### `fetch` -/

@[simp] theorem State.fetch_regs (s : State) : (s.fetch).regs = s.regs := rfl
@[simp] theorem State.fetch_pc (s : State) : (s.fetch).pc = s.pc := rfl
@[simp] theorem State.fetch_sp (s : State) : (s.fetch).sp = s.sp := rfl
@[simp] theorem State.fetch_fl (s : State) : (s.fetch).fl = s.fl := rfl
@[simp] theorem State.fetch_im (s : State) : (s.fetch).im = s.im := rfl
@[simp] theorem State.fetch_is (s : State) : (s.fetch).is = s.is := rfl
@[simp] theorem State.fetch_iip (s : State) : (s.fetch).iip = s.iip := rfl
@[simp] theorem State.fetch_ir (s : State) : (s.fetch).ir = s.readMem s.pc := rfl
@[simp] theorem State.fetch_opa (s : State) : (s.fetch).opa = s.readMem (s.pc + 1) := rfl
@[simp] theorem State.fetch_opb (s : State) : (s.fetch).opb = s.readMem (s.pc + 2) := rfl
@[simp] theorem State.fetch_halted (s : State) : (s.fetch).halted = s.halted := rfl
@[simp] theorem State.fetch_fault (s : State) : (s.fetch).fault = s.fault := rfl
@[simp] theorem State.fetch_out (s : State) : (s.fetch).out = s.out := rfl
@[simp] theorem State.fetch_mem (s : State) : (s.fetch).mem = s.mem := rfl
@[simp] theorem State.fetch_cfg (s : State) : (s.fetch).cfg = s.cfg := rfl
@[simp] theorem State.fetch_reg (s : State) (q : RegIdx) :
    (s.fetch).reg q = s.reg q := rfl
@[simp] theorem State.fetch_readMem (s : State) (x : Byte) :
    (s.fetch).readMem x = s.readMem x := rfl

/-! ### `setPc` -/

@[simp] theorem State.setPc_regs (s : State) (v : Byte) : (s.setPc v).regs = s.regs := rfl
@[simp] theorem State.setPc_pc (s : State) (v : Byte) : (s.setPc v).pc = v := rfl
@[simp] theorem State.setPc_sp (s : State) (v : Byte) : (s.setPc v).sp = s.sp := rfl
@[simp] theorem State.setPc_fl (s : State) (v : Byte) : (s.setPc v).fl = s.fl := rfl
@[simp] theorem State.setPc_im (s : State) (v : Byte) : (s.setPc v).im = s.im := rfl
@[simp] theorem State.setPc_is (s : State) (v : Byte) : (s.setPc v).is = s.is := rfl
@[simp] theorem State.setPc_iip (s : State) (v : Byte) : (s.setPc v).iip = s.iip := rfl
@[simp] theorem State.setPc_ir (s : State) (v : Byte) : (s.setPc v).ir = s.ir := rfl
@[simp] theorem State.setPc_opa (s : State) (v : Byte) : (s.setPc v).opa = s.opa := rfl
@[simp] theorem State.setPc_opb (s : State) (v : Byte) : (s.setPc v).opb = s.opb := rfl
@[simp] theorem State.setPc_halted (s : State) (v : Byte) : (s.setPc v).halted = s.halted := rfl
@[simp] theorem State.setPc_fault (s : State) (v : Byte) : (s.setPc v).fault = s.fault := rfl
@[simp] theorem State.setPc_out (s : State) (v : Byte) : (s.setPc v).out = s.out := rfl
@[simp] theorem State.setPc_mem (s : State) (v : Byte) : (s.setPc v).mem = s.mem := rfl
@[simp] theorem State.setPc_cfg (s : State) (v : Byte) : (s.setPc v).cfg = s.cfg := rfl
@[simp] theorem State.setPc_reg (s : State) (v : Byte) (q : RegIdx) :
    (s.setPc v).reg q = s.reg q := rfl
@[simp] theorem State.setPc_readMem (s : State) (v : Byte) (x : Byte) :
    (s.setPc v).readMem x = s.readMem x := rfl

/-! ### `emit` -/

@[simp] theorem State.emit_regs (s : State) (e : OutEvent) : (s.emit e).regs = s.regs := rfl
@[simp] theorem State.emit_pc (s : State) (e : OutEvent) : (s.emit e).pc = s.pc := rfl
@[simp] theorem State.emit_sp (s : State) (e : OutEvent) : (s.emit e).sp = s.sp := rfl
@[simp] theorem State.emit_fl (s : State) (e : OutEvent) : (s.emit e).fl = s.fl := rfl
@[simp] theorem State.emit_im (s : State) (e : OutEvent) : (s.emit e).im = s.im := rfl
@[simp] theorem State.emit_is (s : State) (e : OutEvent) : (s.emit e).is = s.is := rfl
@[simp] theorem State.emit_iip (s : State) (e : OutEvent) : (s.emit e).iip = s.iip := rfl
@[simp] theorem State.emit_ir (s : State) (e : OutEvent) : (s.emit e).ir = s.ir := rfl
@[simp] theorem State.emit_opa (s : State) (e : OutEvent) : (s.emit e).opa = s.opa := rfl
@[simp] theorem State.emit_opb (s : State) (e : OutEvent) : (s.emit e).opb = s.opb := rfl
@[simp] theorem State.emit_halted (s : State) (e : OutEvent) : (s.emit e).halted = s.halted := rfl
@[simp] theorem State.emit_fault (s : State) (e : OutEvent) : (s.emit e).fault = s.fault := rfl
@[simp] theorem State.emit_out (s : State) (e : OutEvent) : (s.emit e).out = s.out ++ [e] := rfl
@[simp] theorem State.emit_mem (s : State) (e : OutEvent) : (s.emit e).mem = s.mem := rfl
@[simp] theorem State.emit_cfg (s : State) (e : OutEvent) : (s.emit e).cfg = s.cfg := rfl
@[simp] theorem State.emit_reg (s : State) (e : OutEvent) (q : RegIdx) :
    (s.emit e).reg q = s.reg q := rfl
@[simp] theorem State.emit_readMem (s : State) (e : OutEvent) (x : Byte) :
    (s.emit e).readMem x = s.readMem x := rfl

/-! ### `setFl` -/

@[simp] theorem State.setFl_regs (s : State) (v : Byte) : (s.setFl v).regs = s.regs := rfl
@[simp] theorem State.setFl_pc (s : State) (v : Byte) : (s.setFl v).pc = s.pc := rfl
@[simp] theorem State.setFl_sp (s : State) (v : Byte) : (s.setFl v).sp = s.sp := rfl
@[simp] theorem State.setFl_fl (s : State) (v : Byte) : (s.setFl v).fl = v := rfl
@[simp] theorem State.setFl_im (s : State) (v : Byte) : (s.setFl v).im = s.im := rfl
@[simp] theorem State.setFl_is (s : State) (v : Byte) : (s.setFl v).is = s.is := rfl
@[simp] theorem State.setFl_iip (s : State) (v : Byte) : (s.setFl v).iip = s.iip := rfl
@[simp] theorem State.setFl_ir (s : State) (v : Byte) : (s.setFl v).ir = s.ir := rfl
@[simp] theorem State.setFl_opa (s : State) (v : Byte) : (s.setFl v).opa = s.opa := rfl
@[simp] theorem State.setFl_opb (s : State) (v : Byte) : (s.setFl v).opb = s.opb := rfl
@[simp] theorem State.setFl_halted (s : State) (v : Byte) : (s.setFl v).halted = s.halted := rfl
@[simp] theorem State.setFl_fault (s : State) (v : Byte) : (s.setFl v).fault = s.fault := rfl
@[simp] theorem State.setFl_out (s : State) (v : Byte) : (s.setFl v).out = s.out := rfl
@[simp] theorem State.setFl_mem (s : State) (v : Byte) : (s.setFl v).mem = s.mem := rfl
@[simp] theorem State.setFl_cfg (s : State) (v : Byte) : (s.setFl v).cfg = s.cfg := rfl
@[simp] theorem State.setFl_reg (s : State) (v : Byte) (q : RegIdx) :
    (s.setFl v).reg q = s.reg q := rfl
@[simp] theorem State.setFl_readMem (s : State) (v : Byte) (x : Byte) :
    (s.setFl v).readMem x = s.readMem x := rfl

/-! ### `haltWith` -/

@[simp] theorem State.haltWith_regs (s : State) (c : FaultCode) (o : Option Byte) (i : Byte) :
    (s.haltWith c o i).regs = s.regs := rfl
@[simp] theorem State.haltWith_pc (s : State) (c : FaultCode) (o : Option Byte) (i : Byte) :
    (s.haltWith c o i).pc = s.pc := rfl
@[simp] theorem State.haltWith_sp (s : State) (c : FaultCode) (o : Option Byte) (i : Byte) :
    (s.haltWith c o i).sp = s.sp := rfl
@[simp] theorem State.haltWith_fl (s : State) (c : FaultCode) (o : Option Byte) (i : Byte) :
    (s.haltWith c o i).fl = s.fl := rfl
@[simp] theorem State.haltWith_im (s : State) (c : FaultCode) (o : Option Byte) (i : Byte) :
    (s.haltWith c o i).im = s.im := rfl
@[simp] theorem State.haltWith_is (s : State) (c : FaultCode) (o : Option Byte) (i : Byte) :
    (s.haltWith c o i).is = s.is := rfl
@[simp] theorem State.haltWith_iip (s : State) (c : FaultCode) (o : Option Byte) (i : Byte) :
    (s.haltWith c o i).iip = s.iip := rfl
@[simp] theorem State.haltWith_ir (s : State) (c : FaultCode) (o : Option Byte) (i : Byte) :
    (s.haltWith c o i).ir = s.ir := rfl
@[simp] theorem State.haltWith_opa (s : State) (c : FaultCode) (o : Option Byte) (i : Byte) :
    (s.haltWith c o i).opa = s.opa := rfl
@[simp] theorem State.haltWith_opb (s : State) (c : FaultCode) (o : Option Byte) (i : Byte) :
    (s.haltWith c o i).opb = s.opb := rfl
@[simp] theorem State.haltWith_halted (s : State) (c : FaultCode) (o : Option Byte) (i : Byte) :
    (s.haltWith c o i).halted = true := rfl
@[simp] theorem State.haltWith_fault (s : State) (c : FaultCode) (o : Option Byte) (i : Byte) :
    (s.haltWith c o i).fault = some { code := c, pc := s.pc, opcode := o, info := i } := rfl
@[simp] theorem State.haltWith_out (s : State) (c : FaultCode) (o : Option Byte) (i : Byte) :
    (s.haltWith c o i).out = s.out := rfl
@[simp] theorem State.haltWith_mem (s : State) (c : FaultCode) (o : Option Byte) (i : Byte) :
    (s.haltWith c o i).mem = s.mem := rfl
@[simp] theorem State.haltWith_cfg (s : State) (c : FaultCode) (o : Option Byte) (i : Byte) :
    (s.haltWith c o i).cfg = s.cfg := rfl
@[simp] theorem State.haltWith_reg (s : State) (c : FaultCode) (o : Option Byte) (i : Byte) (q : RegIdx) :
    (s.haltWith c o i).reg q = s.reg q := rfl
@[simp] theorem State.haltWith_readMem (s : State) (c : FaultCode) (o : Option Byte) (i : Byte) (x : Byte) :
    (s.haltWith c o i).readMem x = s.readMem x := rfl

/-! ### `push` -/

@[simp] theorem State.push_regs (s : State) (v : Byte) : (s.push v).regs = s.regs := rfl
@[simp] theorem State.push_pc (s : State) (v : Byte) : (s.push v).pc = s.pc := rfl
@[simp] theorem State.push_sp (s : State) (v : Byte) : (s.push v).sp = s.sp - 1 := rfl
@[simp] theorem State.push_fl (s : State) (v : Byte) : (s.push v).fl = s.fl := rfl
@[simp] theorem State.push_im (s : State) (v : Byte) : (s.push v).im = s.im := rfl
@[simp] theorem State.push_is (s : State) (v : Byte) : (s.push v).is = s.is := rfl
@[simp] theorem State.push_iip (s : State) (v : Byte) : (s.push v).iip = s.iip := rfl
@[simp] theorem State.push_ir (s : State) (v : Byte) : (s.push v).ir = s.ir := rfl
@[simp] theorem State.push_opa (s : State) (v : Byte) : (s.push v).opa = s.opa := rfl
@[simp] theorem State.push_opb (s : State) (v : Byte) : (s.push v).opb = s.opb := rfl
@[simp] theorem State.push_halted (s : State) (v : Byte) : (s.push v).halted = s.halted := rfl
@[simp] theorem State.push_fault (s : State) (v : Byte) : (s.push v).fault = s.fault := rfl
@[simp] theorem State.push_out (s : State) (v : Byte) : (s.push v).out = s.out := rfl
@[simp] theorem State.push_mem (s : State) (v : Byte) : (s.push v).mem = s.mem.write (s.sp - 1) v := rfl
@[simp] theorem State.push_cfg (s : State) (v : Byte) : (s.push v).cfg = s.cfg := rfl
@[simp] theorem State.push_reg (s : State) (v : Byte) (q : RegIdx) :
    (s.push v).reg q = s.reg q := rfl

/-! ### `dropTop` -/

@[simp] theorem State.dropTop_regs (s : State) : (s.dropTop).regs = s.regs := rfl
@[simp] theorem State.dropTop_pc (s : State) : (s.dropTop).pc = s.pc := rfl
@[simp] theorem State.dropTop_sp (s : State) : (s.dropTop).sp = s.sp + 1 := rfl
@[simp] theorem State.dropTop_fl (s : State) : (s.dropTop).fl = s.fl := rfl
@[simp] theorem State.dropTop_im (s : State) : (s.dropTop).im = s.im := rfl
@[simp] theorem State.dropTop_is (s : State) : (s.dropTop).is = s.is := rfl
@[simp] theorem State.dropTop_iip (s : State) : (s.dropTop).iip = s.iip := rfl
@[simp] theorem State.dropTop_ir (s : State) : (s.dropTop).ir = s.ir := rfl
@[simp] theorem State.dropTop_opa (s : State) : (s.dropTop).opa = s.opa := rfl
@[simp] theorem State.dropTop_opb (s : State) : (s.dropTop).opb = s.opb := rfl
@[simp] theorem State.dropTop_halted (s : State) : (s.dropTop).halted = s.halted := rfl
@[simp] theorem State.dropTop_fault (s : State) : (s.dropTop).fault = s.fault := rfl
@[simp] theorem State.dropTop_out (s : State) : (s.dropTop).out = s.out := rfl
@[simp] theorem State.dropTop_mem (s : State) : (s.dropTop).mem = s.mem := rfl
@[simp] theorem State.dropTop_cfg (s : State) : (s.dropTop).cfg = s.cfg := rfl
@[simp] theorem State.dropTop_reg (s : State) (q : RegIdx) :
    (s.dropTop).reg q = s.reg q := rfl
@[simp] theorem State.dropTop_readMem (s : State) (x : Byte) :
    (s.dropTop).readMem x = s.readMem x := rfl

/-! ### `acknowledge` -/

@[simp] theorem State.acknowledge_regs (s : State) (n : Line) : (s.acknowledge n).regs = s.regs := rfl
@[simp] theorem State.acknowledge_pc (s : State) (n : Line) : (s.acknowledge n).pc = s.pc := rfl
@[simp] theorem State.acknowledge_sp (s : State) (n : Line) : (s.acknowledge n).sp = s.sp := rfl
@[simp] theorem State.acknowledge_fl (s : State) (n : Line) : (s.acknowledge n).fl = s.fl := rfl
@[simp] theorem State.acknowledge_im (s : State) (n : Line) : (s.acknowledge n).im = s.im := rfl
@[simp] theorem State.acknowledge_is (s : State) (n : Line) : (s.acknowledge n).is = s.is &&& ~~~ lineBit n := rfl
@[simp] theorem State.acknowledge_iip (s : State) (n : Line) : (s.acknowledge n).iip = true := rfl
@[simp] theorem State.acknowledge_ir (s : State) (n : Line) : (s.acknowledge n).ir = s.ir := rfl
@[simp] theorem State.acknowledge_opa (s : State) (n : Line) : (s.acknowledge n).opa = s.opa := rfl
@[simp] theorem State.acknowledge_opb (s : State) (n : Line) : (s.acknowledge n).opb = s.opb := rfl
@[simp] theorem State.acknowledge_halted (s : State) (n : Line) : (s.acknowledge n).halted = s.halted := rfl
@[simp] theorem State.acknowledge_fault (s : State) (n : Line) : (s.acknowledge n).fault = s.fault := rfl
@[simp] theorem State.acknowledge_out (s : State) (n : Line) : (s.acknowledge n).out = s.out := rfl
@[simp] theorem State.acknowledge_mem (s : State) (n : Line) : (s.acknowledge n).mem = s.mem := rfl
@[simp] theorem State.acknowledge_cfg (s : State) (n : Line) : (s.acknowledge n).cfg = s.cfg := rfl
@[simp] theorem State.acknowledge_reg (s : State) (n : Line) (q : RegIdx) :
    (s.acknowledge n).reg q = s.reg q := rfl
@[simp] theorem State.acknowledge_readMem (s : State) (n : Line) (x : Byte) :
    (s.acknowledge n).readMem x = s.readMem x := rfl

/-! ### `raiseLine` -/

@[simp] theorem State.raiseLine_regs (s : State) (n : Line) : (s.raiseLine n).regs = s.regs := rfl
@[simp] theorem State.raiseLine_pc (s : State) (n : Line) : (s.raiseLine n).pc = s.pc := rfl
@[simp] theorem State.raiseLine_sp (s : State) (n : Line) : (s.raiseLine n).sp = s.sp := rfl
@[simp] theorem State.raiseLine_fl (s : State) (n : Line) : (s.raiseLine n).fl = s.fl := rfl
@[simp] theorem State.raiseLine_im (s : State) (n : Line) : (s.raiseLine n).im = s.im := rfl
@[simp] theorem State.raiseLine_is (s : State) (n : Line) : (s.raiseLine n).is = s.is ||| lineBit n := rfl
@[simp] theorem State.raiseLine_iip (s : State) (n : Line) : (s.raiseLine n).iip = s.iip := rfl
@[simp] theorem State.raiseLine_ir (s : State) (n : Line) : (s.raiseLine n).ir = s.ir := rfl
@[simp] theorem State.raiseLine_opa (s : State) (n : Line) : (s.raiseLine n).opa = s.opa := rfl
@[simp] theorem State.raiseLine_opb (s : State) (n : Line) : (s.raiseLine n).opb = s.opb := rfl
@[simp] theorem State.raiseLine_halted (s : State) (n : Line) : (s.raiseLine n).halted = s.halted := rfl
@[simp] theorem State.raiseLine_fault (s : State) (n : Line) : (s.raiseLine n).fault = s.fault := rfl
@[simp] theorem State.raiseLine_out (s : State) (n : Line) : (s.raiseLine n).out = s.out := rfl
@[simp] theorem State.raiseLine_mem (s : State) (n : Line) : (s.raiseLine n).mem = s.mem := rfl
@[simp] theorem State.raiseLine_cfg (s : State) (n : Line) : (s.raiseLine n).cfg = s.cfg := rfl
@[simp] theorem State.raiseLine_reg (s : State) (n : Line) (q : RegIdx) :
    (s.raiseLine n).reg q = s.reg q := rfl
@[simp] theorem State.raiseLine_readMem (s : State) (n : Line) (x : Byte) :
    (s.raiseLine n).readMem x = s.readMem x := rfl

/-! ### `endInterrupt` -/

@[simp] theorem State.endInterrupt_regs (s : State) : (s.endInterrupt).regs = s.regs := rfl
@[simp] theorem State.endInterrupt_pc (s : State) : (s.endInterrupt).pc = s.pc := rfl
@[simp] theorem State.endInterrupt_sp (s : State) : (s.endInterrupt).sp = s.sp := rfl
@[simp] theorem State.endInterrupt_fl (s : State) : (s.endInterrupt).fl = s.fl := rfl
@[simp] theorem State.endInterrupt_im (s : State) : (s.endInterrupt).im = s.im := rfl
@[simp] theorem State.endInterrupt_is (s : State) : (s.endInterrupt).is = s.is := rfl
@[simp] theorem State.endInterrupt_iip (s : State) : (s.endInterrupt).iip = false := rfl
@[simp] theorem State.endInterrupt_ir (s : State) : (s.endInterrupt).ir = s.ir := rfl
@[simp] theorem State.endInterrupt_opa (s : State) : (s.endInterrupt).opa = s.opa := rfl
@[simp] theorem State.endInterrupt_opb (s : State) : (s.endInterrupt).opb = s.opb := rfl
@[simp] theorem State.endInterrupt_halted (s : State) : (s.endInterrupt).halted = s.halted := rfl
@[simp] theorem State.endInterrupt_fault (s : State) : (s.endInterrupt).fault = s.fault := rfl
@[simp] theorem State.endInterrupt_out (s : State) : (s.endInterrupt).out = s.out := rfl
@[simp] theorem State.endInterrupt_mem (s : State) : (s.endInterrupt).mem = s.mem := rfl
@[simp] theorem State.endInterrupt_cfg (s : State) : (s.endInterrupt).cfg = s.cfg := rfl
@[simp] theorem State.endInterrupt_reg (s : State) (q : RegIdx) :
    (s.endInterrupt).reg q = s.reg q := rfl
@[simp] theorem State.endInterrupt_readMem (s : State) (x : Byte) :
    (s.endInterrupt).readMem x = s.readMem x := rfl

/-! ### `setMask` -/

@[simp] theorem State.setMask_regs (s : State) (m : Byte) : (s.setMask m).regs = s.regs := rfl
@[simp] theorem State.setMask_pc (s : State) (m : Byte) : (s.setMask m).pc = s.pc := rfl
@[simp] theorem State.setMask_sp (s : State) (m : Byte) : (s.setMask m).sp = s.sp := rfl
@[simp] theorem State.setMask_fl (s : State) (m : Byte) : (s.setMask m).fl = s.fl := rfl
@[simp] theorem State.setMask_im (s : State) (m : Byte) : (s.setMask m).im = m := rfl
@[simp] theorem State.setMask_is (s : State) (m : Byte) : (s.setMask m).is = s.is := rfl
@[simp] theorem State.setMask_iip (s : State) (m : Byte) : (s.setMask m).iip = s.iip := rfl
@[simp] theorem State.setMask_ir (s : State) (m : Byte) : (s.setMask m).ir = s.ir := rfl
@[simp] theorem State.setMask_opa (s : State) (m : Byte) : (s.setMask m).opa = s.opa := rfl
@[simp] theorem State.setMask_opb (s : State) (m : Byte) : (s.setMask m).opb = s.opb := rfl
@[simp] theorem State.setMask_halted (s : State) (m : Byte) : (s.setMask m).halted = s.halted := rfl
@[simp] theorem State.setMask_fault (s : State) (m : Byte) : (s.setMask m).fault = s.fault := rfl
@[simp] theorem State.setMask_out (s : State) (m : Byte) : (s.setMask m).out = s.out := rfl
@[simp] theorem State.setMask_mem (s : State) (m : Byte) : (s.setMask m).mem = s.mem := rfl
@[simp] theorem State.setMask_cfg (s : State) (m : Byte) : (s.setMask m).cfg = s.cfg := rfl
@[simp] theorem State.setMask_reg (s : State) (m : Byte) (q : RegIdx) :
    (s.setMask m).reg q = s.reg q := rfl
@[simp] theorem State.setMask_readMem (s : State) (m : Byte) (x : Byte) :
    (s.setMask m).readMem x = s.readMem x := rfl

/-! ### Reading a register after writing one -/

@[simp] theorem State.setReg_reg_same (s : State) (r : RegIdx) (v : Byte) : (s.setReg r v).reg r = v := by
  simp [State.reg, State.setReg]

theorem State.setReg_reg_ne (s : State) (r q : RegIdx) (v : Byte) (h : q ≠ r) : (s.setReg r v).reg q = s.reg q := by
  have : r.val ≠ q.val := fun e => h (Fin.ext e.symm)
  simp [State.reg, State.setReg, Vector.getElem_set_ne _ _ this]

theorem State.setReg_reg (s : State) (r q : RegIdx) (v : Byte) :
    (s.setReg r v).reg q = if q = r then v else s.reg q := by
  split
  · next h => subst h; exact State.setReg_reg_same s q v
  · next h => exact State.setReg_reg_ne s r q v h

/-- Two register files that agree on every register are equal. -/
theorem State.regs_ext (s t : State) (h : ∀ r, s.reg r = t.reg r) : s.regs = t.regs :=
  Vector.ext fun i hi => h ⟨i, hi⟩

end Sys2Proof.Machine
end

