-- ==== Sys2Proof/Laws/Operands.lean ====
section
/-! SUPPORT. What the shared operand forms answer: each case once. -/

namespace Sys2Proof.Machine

theorem regIndex_fault_some (cfg : Config) (b : Byte) (r : RegIdx) (hm : cfg.regIndexMode = .fault) :
    regIndex cfg b = some r ↔ b.toNat = r.val := by
  unfold regIndex
  simp only [hm]
  split
  · next h => simp [Fin.ext_iff]
  · next h =>
    simp only [reduceCtorEq, false_iff]
    omega

theorem regIndex_fault_none (cfg : Config) (b : Byte) (hm : cfg.regIndexMode = .fault) :
    regIndex cfg b = none ↔ 8 ≤ b.toNat := by
  unfold regIndex
  simp only [hm]
  split
  · next h => simp only [reduceCtorEq, false_iff]; omega
  · next h => simp only [true_iff]; omega

theorem regIndex_mask3 (cfg : Config) (b : Byte) (hm : cfg.regIndexMode = .mask3) :
    regIndex cfg b = some ⟨b.toNat % 8, Nat.mod_lt _ (by decide)⟩ := by
  unfold regIndex
  simp only [hm]

theorem withReg_none (ra : Byte) (s : State) (f : RegIdx → State) (h : regIndex s.cfg ra = none) :
    withReg ra s f = .next (s.raiseFault .badRegister ra) := by simp only [withReg, h]

theorem withReg_some (ra : Byte) (s : State) (f : RegIdx → State) (a : RegIdx) (h : regIndex s.cfg ra = some a) :
    withReg ra s f = .next (f a) := by simp only [withReg, h]

theorem withRegs_none_left (ra rb : Byte) (s : State) (f : RegIdx → RegIdx → State) (h : regIndex s.cfg ra = none) :
    withRegs ra rb s f = .next (s.raiseFault .badRegister ra) := by simp only [withRegs, h]

theorem withRegs_none_right (ra rb : Byte) (s : State) (f : RegIdx → RegIdx → State) (a : RegIdx)
    (ha : regIndex s.cfg ra = some a) (hb : regIndex s.cfg rb = none) :
    withRegs ra rb s f = .next (s.raiseFault .badRegister rb) := by simp only [withRegs, ha, hb]

theorem withRegs_some (ra rb : Byte) (s : State) (f : RegIdx → RegIdx → State) (a b : RegIdx)
    (ha : regIndex s.cfg ra = some a) (hb : regIndex s.cfg rb = some b) :
    withRegs ra rb s f = .next (f a b) := by simp only [withRegs, ha, hb]

/-- Everything a one-register form can do. -/
theorem withReg_next (ra : Byte) (s t : State) (f : RegIdx → State) (h : withReg ra s f = .next t) :
    (regIndex s.cfg ra = none ∧ t = s.raiseFault .badRegister ra) ∨
      ∃ a, regIndex s.cfg ra = some a ∧ t = f a := by
  unfold withReg at h
  split at h
  · next e => exact Or.inl ⟨e, (Host.Outcome.next.inj h).symm⟩
  · next a e => exact Or.inr ⟨a, e, (Host.Outcome.next.inj h).symm⟩

/-- Everything a two-register form can do. -/
theorem withRegs_next (ra rb : Byte) (s t : State) (f : RegIdx → RegIdx → State) (h : withRegs ra rb s f = .next t) :
    (∃ x, t = s.raiseFault .badRegister x ∧ (x = ra ∧ regIndex s.cfg ra = none ∨
        x = rb ∧ regIndex s.cfg ra ≠ none ∧ regIndex s.cfg rb = none)) ∨
      ∃ a b, regIndex s.cfg ra = some a ∧ regIndex s.cfg rb = some b ∧ t = f a b := by
  unfold withRegs at h
  split at h
  · next e => exact Or.inl ⟨ra, (Host.Outcome.next.inj h).symm, Or.inl ⟨rfl, e⟩⟩
  · next a ea =>
    split at h
    · next eb => exact Or.inl ⟨rb, (Host.Outcome.next.inj h).symm, Or.inr ⟨rfl, by simp [ea], eb⟩⟩
    · next b eb => exact Or.inr ⟨a, b, ea, eb, (Host.Outcome.next.inj h).symm⟩

/-- A one-register form always answers a next state. -/
theorem withReg_answers (ra : Byte) (s : State) (f : RegIdx → State) : ∃ t, withReg ra s f = .next t := by
  unfold withReg
  split
  · exact ⟨_, rfl⟩
  · exact ⟨_, rfl⟩

/-- A two-register form always answers a next state. -/
theorem withRegs_answers (ra rb : Byte) (s : State) (f : RegIdx → RegIdx → State) :
    ∃ t, withRegs ra rb s f = .next t := by
  unfold withRegs
  split
  · exact ⟨_, rfl⟩
  · split
    · exact ⟨_, rfl⟩
    · exact ⟨_, rfl⟩

/-- An instruction that is `withReg` of an effect follows the one-register rule. -/
theorem oneRegRule_of_withReg (i : Byte → Instr) (s : State) (effect : Byte → RegIdx → State)
    (h : ∀ ra, exec (i ra) s = withReg ra s (effect ra)) : OneRegRule i s effect := fun ra =>
  ⟨fun hn => (h ra).trans (withReg_none ra s _ hn), fun a ha => (h ra).trans (withReg_some ra s _ a ha)⟩

/-- An instruction that is `withRegs` of an effect follows the two-register rule. -/
theorem twoRegRule_of_withRegs (i : Byte → Byte → Instr) (s : State) (effect : Byte → RegIdx → RegIdx → State)
    (h : ∀ ra rb, exec (i ra rb) s = withRegs ra rb s (effect rb)) : TwoRegRule i s effect := fun ra rb =>
  ⟨fun hn => (h ra rb).trans (withRegs_none_left ra rb s _ hn),
    fun a ha hb => (h ra rb).trans (withRegs_none_right ra rb s _ a ha hb),
    fun a b ha hb => (h ra rb).trans (withRegs_some ra rb s _ a b ha hb)⟩

end Sys2Proof.Machine
end

