-- ==== Sys2Proof/Laws/Memory.lean ====
section
/-! SUPPORT. The laws of memory: read after write, the canonical form is kept, and memories in canonical form that read
alike are equal. -/

namespace Sys2Proof.Machine

theorem Memory.lookup_withCell_same (a : Nat) (v : Byte) (m : Memory) (h : Memory.lookup m a = Memory.unlisted) :
    Memory.lookup (Memory.withCell a v m) a = v := by
  unfold Memory.withCell
  split
  · next e => rw [h, e]
  · simp [Memory.lookup]

theorem Memory.lookup_withCell_ne (a b : Nat) (v : Byte) (m : Memory) (h : a ≠ b) :
    Memory.lookup (Memory.withCell a v m) b = Memory.lookup m b := by
  unfold Memory.withCell
  split
  · rfl
  · simp [Memory.lookup, h]

/-- An address below the first listed one is unlisted. -/
theorem Memory.lookup_below (m : Memory) : ∀ lo a : Nat, Memory.wfFrom lo m = true → a < lo →
    Memory.lookup m a = Memory.unlisted := by
  induction m with
  | nil => intro _ _ _ _; rfl
  | cons c m ih =>
    obtain ⟨k, v⟩ := c
    intro lo a h ha
    simp only [Memory.wfFrom, Bool.and_eq_true, decide_eq_true_eq] at h
    have hka : k ≠ a := by omega
    simp only [Memory.lookup, hka, if_false]
    exact ih (k + 1) a h.2 (by omega)

theorem Memory.wfFrom_mono (m : Memory) (lo hi : Nat) (hle : lo ≤ hi) (h : Memory.wfFrom hi m = true) :
    Memory.wfFrom lo m = true := by
  cases m with
  | nil => rfl
  | cons c m =>
    obtain ⟨k, v⟩ := c
    simp only [Memory.wfFrom, Bool.and_eq_true, decide_eq_true_eq] at h ⊢
    exact ⟨⟨⟨by omega, h.1.1.2⟩, h.1.2⟩, h.2⟩

theorem Memory.wfFrom_withCell (a : Nat) (v : Byte) (m : Memory) (lo : Nat) (hlo : lo ≤ a) (ha : a < 256)
    (h : Memory.wfFrom (a + 1) m = true) : Memory.wfFrom lo (Memory.withCell a v m) = true := by
  unfold Memory.withCell
  split
  · exact Memory.wfFrom_mono m lo (a + 1) (by omega) h
  · next hv =>
    simp only [Memory.wfFrom, Bool.and_eq_true, decide_eq_true_eq, bne_iff_ne]
    exact ⟨⟨⟨hlo, ha⟩, hv⟩, h⟩

/-- An update keeps the canonical form. -/
theorem Memory.wfFrom_update (m : Memory) : ∀ (lo a : Nat) (v : Byte), lo ≤ a → a < 256 → Memory.wfFrom lo m = true →
    Memory.wfFrom lo (Memory.update m a v) = true := by
  induction m with
  | nil => intro lo a v hlo ha _; exact Memory.wfFrom_withCell a v [] lo hlo ha rfl
  | cons c m ih =>
    obtain ⟨k, w⟩ := c
    intro lo a v hlo ha h
    have hm := h
    simp only [Memory.wfFrom, Bool.and_eq_true, decide_eq_true_eq] at h
    unfold Memory.update
    split
    · next hlt =>
      refine Memory.wfFrom_withCell a v _ lo hlo ha ?_
      simp only [Memory.wfFrom, Bool.and_eq_true, decide_eq_true_eq]
      exact ⟨⟨⟨by omega, h.1.1.2⟩, h.1.2⟩, h.2⟩
    · split
      · next _ he => subst he; exact Memory.wfFrom_withCell a v m lo hlo ha h.2
      · next hlt hne =>
        simp only [Memory.wfFrom, Bool.and_eq_true, decide_eq_true_eq]
        exact ⟨⟨⟨h.1.1.1, h.1.1.2⟩, h.1.2⟩, ih (k + 1) a v (by omega) ha h.2⟩

theorem Memory.lookup_update_ne (m : Memory) (a b : Nat) (v : Byte) (h : a ≠ b) :
    Memory.lookup (Memory.update m a v) b = Memory.lookup m b := by
  induction m with
  | nil => exact Memory.lookup_withCell_ne a b v [] h
  | cons c m ih =>
    obtain ⟨k, w⟩ := c
    unfold Memory.update
    split
    · exact Memory.lookup_withCell_ne a b v _ h
    · split
      · next _ he =>
        subst he
        rw [Memory.lookup_withCell_ne a b v m h]
        simp [Memory.lookup, h]
      · simp only [Memory.lookup, ih]

theorem Memory.lookup_update_same (m : Memory) (a : Nat) (v : Byte) : ∀ lo, Memory.wfFrom lo m = true →
    Memory.lookup (Memory.update m a v) a = v := by
  induction m with
  | nil => intro _ _; exact Memory.lookup_withCell_same a v [] rfl
  | cons c m ih =>
    obtain ⟨k, w⟩ := c
    intro lo h
    have hm := h
    simp only [Memory.wfFrom, Bool.and_eq_true, decide_eq_true_eq] at h
    unfold Memory.update
    split
    · next hlt =>
      refine Memory.lookup_withCell_same a v _ (Memory.lookup_below _ k a ?_ hlt)
      exact Memory.wfFrom_mono _ _ _ (Nat.le_refl k) (by
        simp only [Memory.wfFrom, Bool.and_eq_true, decide_eq_true_eq]
        exact ⟨⟨⟨Nat.le_refl k, h.1.1.2⟩, h.1.2⟩, h.2⟩)
    · split
      · next _ he =>
        subst he
        exact Memory.lookup_withCell_same a v m (Memory.lookup_below m (a + 1) a h.2 (by omega))
      · next _ hne =>
        have hka : k ≠ a := fun e => hne e.symm
        simp only [Memory.lookup, hka, if_false]
        exact ih (k + 1) h.2

/-- Memories in canonical form that read alike are equal. -/
theorem Memory.eq_of_lookup (m : Memory) : ∀ (n : Memory) (lo : Nat), Memory.wfFrom lo m = true →
    Memory.wfFrom lo n = true → (∀ a, Memory.lookup m a = Memory.lookup n a) → m = n := by
  induction m with
  | nil =>
    intro n lo _ hn h
    cases n with
    | nil => rfl
    | cons c n =>
      obtain ⟨k, v⟩ := c
      have hk := h k
      simp only [Memory.wfFrom, Bool.and_eq_true, bne_iff_ne] at hn
      simp [Memory.lookup] at hk
      exact absurd hk.symm hn.1.2
  | cons c m ih =>
    obtain ⟨k, v⟩ := c
    intro n lo hm hn h
    have hm' := hm
    simp only [Memory.wfFrom, Bool.and_eq_true, bne_iff_ne, decide_eq_true_eq] at hm
    cases n with
    | nil =>
      have hk := h k
      simp [Memory.lookup] at hk
      exact absurd hk hm.1.2
    | cons d n =>
      obtain ⟨j, w⟩ := d
      simp only [Memory.wfFrom, Bool.and_eq_true, bne_iff_ne, decide_eq_true_eq] at hn
      have hkj : k = j := by
        rcases Nat.lt_trichotomy k j with hlt | he | hgt
        · have hk := h k
          have : j ≠ k := by omega
          simp only [Memory.lookup, if_true, this, if_false] at hk
          rw [Memory.lookup_below n (j + 1) k hn.2 (by omega)] at hk
          exact absurd hk hm.1.2
        · exact he
        · have hj := h j
          have : k ≠ j := by omega
          simp only [Memory.lookup, if_true, this, if_false] at hj
          rw [Memory.lookup_below m (k + 1) j hm.2 (by omega)] at hj
          exact absurd hj.symm hn.1.2
      subst hkj
      have hv : v = w := by simpa [Memory.lookup] using h k
      subst hv
      have htail : m = n := by
        refine ih n (k + 1) hm.2 hn.2 fun a => ?_
        by_cases ha : k = a
        · subst ha
          rw [Memory.lookup_below m (k + 1) k hm.2 (by omega), Memory.lookup_below n (k + 1) k hn.2 (by omega)]
        · simpa [Memory.lookup, ha] using h a
      rw [htail]

/-! ### The two accesses of the core -/

theorem Memory.wf_write (m : Memory) (a v : Byte) (h : m.wf = true) : (m.write a v).wf = true :=
  Memory.wfFrom_update m 0 a.toNat v (Nat.zero_le _) a.isLt h

theorem Memory.read_write_same (m : Memory) (a v : Byte) (h : m.wf = true) : (m.write a v).read a = v :=
  Memory.lookup_update_same m a.toNat v 0 h

theorem Memory.read_write_ne (m : Memory) (a b v : Byte) (h : b ≠ a) : (m.write a v).read b = m.read b :=
  Memory.lookup_update_ne m a.toNat b.toNat v fun e => h (BitVec.eq_of_toNat_eq e.symm)

theorem Memory.read_write (m : Memory) (a b v : Byte) (h : m.wf = true) :
    (m.write a v).read b = if b = a then v else m.read b := by
  split
  · next e => subst e; exact Memory.read_write_same m b v h
  · next e => exact Memory.read_write_ne m a b v e

theorem Memory.wf_writeBytes (bs : List Byte) : ∀ (m : Memory) (a : Byte), m.wf = true →
    (m.writeBytes a bs).wf = true := by
  induction bs with
  | nil => intro m a h; exact h
  | cons b bs ih => intro m a h; exact ih _ _ (Memory.wf_write m a b h)

/-- The key of a listed cell is below 256. -/
theorem Memory.lookup_high (m : Memory) : ∀ lo a : Nat, Memory.wfFrom lo m = true → 256 ≤ a →
    Memory.lookup m a = Memory.unlisted := by
  induction m with
  | nil => intro _ _ _ _; rfl
  | cons c m ih =>
    obtain ⟨k, v⟩ := c
    intro lo a h ha
    simp only [Memory.wfFrom, Bool.and_eq_true, decide_eq_true_eq] at h
    have hka : k ≠ a := by omega
    simp only [Memory.lookup, hka, if_false]
    exact ih (k + 1) a h.2 ha

/-- Memories in canonical form whose 256 bytes agree are equal. -/
theorem Memory.eq_of_read (m n : Memory) (hm : m.wf = true) (hn : n.wf = true) (h : ∀ a : Byte, m.read a = n.read a) :
    m = n := by
  refine Memory.eq_of_lookup m n 0 hm hn fun a => ?_
  by_cases ha : a < 256
  · have := h (BitVec.ofNat 8 a)
    simpa [Memory.read, Nat.mod_eq_of_lt ha] using this
  · rw [Memory.lookup_high m 0 a hm (by omega), Memory.lookup_high n 0 a hn (by omega)]

/-- The empty memory is in canonical form and reads as unlisted everywhere. -/
theorem Memory.wf_nil : Memory.wf [] = true := rfl

end Sys2Proof.Machine
end

