-- ==== Sys2Proof/Laws/Ops.lean ====
section
/-! SUPPORT. What the shared operations do, once each: the stack, the interrupt check, interrupt entry and return. -/

namespace Sys2Proof.Machine

theorem State.readMem_writeMem (s : State) (a v x : Byte) (h : s.mem.wf = true) :
    (s.writeMem a v).readMem x = if x = a then v else s.readMem x := Memory.read_write s.mem a x v h

theorem State.readMem_push (s : State) (v x : Byte) (h : s.mem.wf = true) :
    (s.push v).readMem x = if x = s.sp - 1 then v else s.readMem x := Memory.read_write s.mem (s.sp - 1) x v h

/-! ### Range checks (R150, R151, R156) -/

theorem State.pushFits_iff (s : State) (k : Nat) :
    s.pushFits k = true ↔ s.cfg.stackOor = .wrap ∨ (k ≤ s.sp.toNat ∧ s.sp.toNat ≤ 244) := by
  unfold State.pushFits
  split
  · next e => simp [e]
  · next e => simp [e]

theorem State.popFits_iff (s : State) (k : Nat) :
    s.popFits k = true ↔ s.cfg.stackOor = .wrap ∨ s.sp.toNat + k ≤ 244 := by
  unfold State.popFits
  split
  · next e => simp [e]
  · next e => simp [e]

/-! ### Addresses below the stack pointer -/

theorem Byte.sub_one_sub (a : Byte) (k : Nat) : a - 1 - BitVec.ofNat 8 k = a - BitVec.ofNat 8 (k + 1) := by
  rw [BitVec.sub_sub, BitVec.add_comm 1, BitVec.ofNat_add]
  rfl

theorem Byte.sub_ofNat_inj (a : Byte) (i j : Nat) (hi : i < 256) (hj : j < 256)
    (h : a - BitVec.ofNat 8 i = a - BitVec.ofNat 8 j) : i = j := by
  have := congrArg BitVec.toNat ((BitVec.sub_right_inj ..).mp h)
  simpa [Nat.mod_eq_of_lt hi, Nat.mod_eq_of_lt hj] using this

/-! ### Pushing several bytes -/

/-- Memory after the bytes of a list are pushed, first to last, with the stack pointer at `sp`. -/
def Memory.pushBytes (m : Memory) (sp : Byte) : List Byte → Memory
  | [] => m
  | v :: vs => Memory.pushBytes (m.write (sp - 1) v) (sp - 1) vs

theorem State.pushAll_eq (vs : List Byte) : ∀ s : State, s.pushAll vs =
    { s with sp := s.sp - BitVec.ofNat 8 vs.length, mem := s.mem.pushBytes s.sp vs } := by
  induction vs with
  | nil => intro s; simp [State.pushAll, Memory.pushBytes]
  | cons v vs ih =>
    intro s
    show (s.push v).pushAll vs = _
    rw [ih (s.push v)]
    simp only [State.push, State.pushAddr, Memory.pushBytes, List.length_cons, Byte.sub_one_sub]

theorem Memory.wf_pushBytes (vs : List Byte) : ∀ (m : Memory) (sp : Byte), m.wf = true →
    (m.pushBytes sp vs).wf = true := by
  induction vs with
  | nil => intro m _ h; exact h
  | cons v vs ih => intro m sp h; exact ih _ _ (Memory.wf_write m (sp - 1) v h)

/-- A byte more than the list's length below the stack pointer, or above it, is left as it was. -/
theorem Memory.read_pushBytes_other (vs : List Byte) : ∀ (m : Memory) (sp x : Byte),
    (∀ i, i < vs.length → x ≠ sp - 1 - BitVec.ofNat 8 i) → (m.pushBytes sp vs).read x = m.read x := by
  induction vs with
  | nil => intro m sp x _; rfl
  | cons v vs ih =>
    intro m sp x h
    have h0 : x ≠ sp - 1 := by simpa using h 0 (by simp)
    show ((m.write (sp - 1) v).pushBytes (sp - 1) vs).read x = _
    rw [ih (m.write (sp - 1) v) (sp - 1) x ?_, Memory.read_write_ne m (sp - 1) x v h0]
    intro i hi e
    exact h (i + 1) (by simp only [List.length_cons]; omega) (by rw [e, Byte.sub_one_sub (sp - 1)])

/-- The byte pushed `i`-th lies `i + 1` below the stack pointer. -/
theorem Memory.read_pushBytes (vs : List Byte) : ∀ (m : Memory) (sp : Byte) (i : Nat) (v : Byte), m.wf = true →
    vs.length ≤ 256 → vs[i]? = some v → (m.pushBytes sp vs).read (sp - 1 - BitVec.ofNat 8 i) = v := by
  induction vs with
  | nil => intro m sp i v _ _ h; simp at h
  | cons w vs ih =>
    intro m sp i v hm hlen h
    show ((m.write (sp - 1) w).pushBytes (sp - 1) vs).read _ = v
    cases i with
    | zero =>
      have hv : w = v := by simpa using h
      subst hv
      rw [Memory.read_pushBytes_other]
      · simpa using Memory.read_write_same m (sp - 1) w hm
      · intro j hj e
        simp only [List.length_cons] at hlen
        rw [Byte.sub_one_sub (sp - 1)] at e
        have := Byte.sub_ofNat_inj (sp - 1) 0 (j + 1) (by omega) (by omega) e
        omega
    | succ j =>
      have hj : vs[j]? = some v := by simpa using h
      have := ih (m.write (sp - 1) w) (sp - 1) j v (Memory.wf_write m (sp - 1) w hm) (by simp at hlen; omega) hj
      rwa [Byte.sub_one_sub (sp - 1)] at this

/-! ### The interrupt check (R214, R215) -/

theorem lowestSetBit_eq_some_iff (v : Byte) (n : Line) :
    lowestSetBit v = some n ↔ v.getLsbD n.val = true ∧ ∀ m : Line, m < n → v.getLsbD m.val = false := by
  revert v n
  decide +kernel

theorem lowestSetBit_eq_none_iff (v : Byte) : lowestSetBit v = none ↔ v = 0 := by
  revert v
  decide +kernel

/-- Everything the check can answer. -/
theorem State.takenLine_eq_some_iff (s : State) (n : Line) :
    s.takenLine = some n ↔ s.iip = false ∧ (s.im &&& s.is).getLsbD n.val = true ∧
      ∀ m : Line, m < n → (s.im &&& s.is).getLsbD m.val = false := by
  unfold State.takenLine
  split
  · next e => simp [e]
  · next e => simp only [e, true_and]; exact lowestSetBit_eq_some_iff _ n

theorem State.takenLine_eq_none_iff (s : State) :
    s.takenLine = none ↔ s.iip = true ∨ s.im &&& s.is = 0 := by
  unfold State.takenLine
  split
  · next e => simp [e]
  · next e => simp only [e, Bool.false_eq_true, false_or]; exact lowestSetBit_eq_none_iff _

/-! ### Interrupt entry (R216 to R218) -/

theorem State.frame_length (s : State) : s.frame.length = frameSize := rfl

/-- The state after an entry that fits, field by field but the program counter. -/
theorem interruptEntry_of_fits (n : Line) (s : State) (h : s.pushFits frameSize = true) :
    interruptEntry n s =
      { s with
        iip := true
        is := s.is &&& ~~~ lineBit n
        sp := s.sp - 9
        mem := s.mem.pushBytes s.sp s.frame
        pc := State.vector { s with mem := s.mem.pushBytes s.sp s.frame } n } := by
  unfold interruptEntry
  simp only [h, if_true, State.pushAll_eq, State.frame_length]
  rfl

theorem interruptEntry_of_not_fits (n : Line) (s : State) (h : s.pushFits frameSize = false) :
    interruptEntry n s = s.haltWith .stackOverflow none s.sp := by
  unfold interruptEntry
  simp [h]

/-! ### Return from an interrupt (R191) -/

/-- The state after the nine pops, field by field but the registers. -/
theorem interruptReturn_eq (s : State) :
    interruptReturn s =
      { s with
        regs := (interruptReturn s).regs
        sp := s.sp + 9
        fl := s.readMem (s.sp + 7)
        pc := s.readMem (s.sp + 8)
        iip := false } := by
  have h7 : s.sp + 1 + 1 + 1 + 1 + 1 + 1 + 1 = s.sp + 7 := by
    simp only [BitVec.add_assoc]; rfl
  have h8 : s.sp + 7 + 1 = s.sp + 8 := by simp only [BitVec.add_assoc]; rfl
  have h9 : s.sp + 8 + 1 = s.sp + 9 := by simp only [BitVec.add_assoc]; rfl
  rw [← h9, ← h8, ← h7]
  rfl

/-- A register that is not among those popped keeps its value. -/
theorem State.popRegs_reg_of_notMem (rs : List RegIdx) (q : RegIdx) (hq : q ∉ rs) : ∀ s : State,
    (rs.foldl State.popReg s).reg q = s.reg q := by
  induction rs with
  | nil => intro s; rfl
  | cons p rs ih =>
    intro s
    simp only [List.mem_cons, not_or] at hq
    show (rs.foldl State.popReg (s.popReg p)).reg q = _
    rw [ih hq.2]
    exact State.setReg_reg_ne s.dropTop p q s.top hq.1

/-- Of distinct registers popped one after another, the `i`-th gets the byte `i` above the stack pointer. -/
theorem State.popRegs_reg (rs : List RegIdx) : ∀ (s : State) (i : Nat) (q : RegIdx), rs.Nodup → rs[i]? = some q →
    (rs.foldl State.popReg s).reg q = s.readMem (s.sp + BitVec.ofNat 8 i) := by
  induction rs with
  | nil => intro s i q _ h; simp at h
  | cons p rs ih =>
    intro s i q hd h
    have ⟨hp, hd⟩ := List.nodup_cons.mp hd
    show (rs.foldl State.popReg (s.popReg p)).reg q = _
    cases i with
    | zero =>
      obtain rfl : p = q := by simpa using h
      rw [State.popRegs_reg_of_notMem rs p hp]
      simp
    | succ k =>
      rw [ih (s.popReg p) k q hd (by simpa using h), Nat.add_comm k 1, BitVec.ofNat_add, ← BitVec.add_assoc]
      rfl

/-- R0 to R6 come off the stack, R6 from its top; R7 is not restored. -/
theorem interruptReturn_reg (s : State) (r : RegIdx) :
    (interruptReturn s).reg r = if r = 7 then s.reg 7 else s.readMem (s.sp + BitVec.ofNat 8 (6 - r.val)) := by
  show (frameRegs.reverse.foldl State.popReg s).reg r = _
  split
  · next h => subst h; exact State.popRegs_reg_of_notMem _ 7 (by decide) s
  · next h =>
    have place : ∀ q : RegIdx, q ≠ 7 → frameRegs.reverse[6 - q.val]? = some q := by decide
    exact State.popRegs_reg _ s _ r (by decide) (place r h)

end Sys2Proof.Machine
end

