-- ==== Sys2Proof/Laws/Exec.lean ====
section
/-! SUPPORT. What an instruction can do, said once: `ExecEffect` lists the shapes of a next state, `exec_effect` says that
every next state of `exec` has one of them, and every invariant is a case analysis over them. -/

namespace Sys2Proof.Machine

/-- The instructions whose one effect but PC is a register write, with the operand byte that names the register. -/
inductive WritesReg : Instr → Byte → Prop where
  | add (ra rb : Byte) : WritesReg (.add ra rb) ra
  | sub (ra rb : Byte) : WritesReg (.sub ra rb) ra
  | mul (ra rb : Byte) : WritesReg (.mul ra rb) ra
  | div (ra rb : Byte) : WritesReg (.div ra rb) ra
  | mod (ra rb : Byte) : WritesReg (.mod ra rb) ra
  | and (ra rb : Byte) : WritesReg (.and ra rb) ra
  | or (ra rb : Byte) : WritesReg (.or ra rb) ra
  | xor (ra rb : Byte) : WritesReg (.xor ra rb) ra
  | not (ra : Byte) : WritesReg (.not ra) ra
  | inc (ra : Byte) : WritesReg (.inc ra) ra
  | dec (ra : Byte) : WritesReg (.dec ra) ra
  | ldi (ra imm8 : Byte) : WritesReg (.ldi ra imm8) ra
  | ld (ra rb : Byte) : WritesReg (.ld ra rb) ra

/-- The instructions whose one effect is on PC. -/
inductive WritesOnlyPc : Instr → Prop where
  | jmp (ra : Byte) : WritesOnlyPc (.jmp ra)
  | jeq (ra : Byte) : WritesOnlyPc (.jeq ra)
  | jne (ra : Byte) : WritesOnlyPc (.jne ra)
  | jgt (ra : Byte) : WritesOnlyPc (.jgt ra)
  | jlt (ra : Byte) : WritesOnlyPc (.jlt ra)
  | nop : WritesOnlyPc .nop
  | reserved (opcode : Byte) : WritesOnlyPc (.reservedAa3 opcode)

/-- The shapes of the next state of an instruction at `s`. -/
inductive ExecEffect (s : State) : Instr → State → Prop where
  | fault (i : Instr) (c : FaultCode) (info : Byte) : ExecEffect s i (s.haltWith c (some s.ir) info)
  | writesReg (i : Instr) (ra : Byte) (a : RegIdx) (v n : Byte) (hi : WritesReg i ra)
      (ha : regIndex s.cfg ra = some a) : ExecEffect s i ((s.setReg a v).setPc n)
  | onlyPc (i : Instr) (n : Byte) (hi : WritesOnlyPc i) : ExecEffect s i (s.setPc n)
  | cmp (ra rb v n : Byte) : ExecEffect s (.cmp ra rb) ((s.setFl v).setPc n)
  | st (ra rb : Byte) (a b : RegIdx) (n : Byte) (ha : regIndex s.cfg ra = some a) (hb : regIndex s.cfg rb = some b) :
      ExecEffect s (.st ra rb) ((s.writeMem (s.reg a) (s.reg b)).setPc n)
  | push (ra : Byte) (a : RegIdx) (v n : Byte) (ha : regIndex s.cfg ra = some a) (hr : s.pushFits 1 = true) :
      ExecEffect s (.push ra) (((s.push v).mirror v).setPc n)
  | pop (ra : Byte) (a : RegIdx) (n : Byte) (ha : regIndex s.cfg ra = some a) (hr : s.popFits 1 = true) :
      ExecEffect s (.pop ra) ((s.popReg a).setPc n)
  | call (ra : Byte) (a : RegIdx) (v n : Byte) (ha : regIndex s.cfg ra = some a) (hr : s.pushFits 1 = true) :
      ExecEffect s (.call ra) ((s.push v).setPc n)
  | ret (hr : s.popFits 1 = true) : ExecEffect s .ret s.popPc
  | iret (hr : s.popFits frameSize = true) : ExecEffect s .iret (interruptReturn s)
  | int (ra : Byte) (a : RegIdx) (l : Line) (n : Byte) (ha : regIndex s.cfg ra = some a)
      (hl : (s.reg a).toNat = l.val) : ExecEffect s (.int ra) ((s.raiseLine l).setPc n)
  | prn (ra : Byte) (a : RegIdx) (n : Byte) (ha : regIndex s.cfg ra = some a) :
      ExecEffect s (.prn ra) ((s.emit (.dec (s.reg a))).setPc n)
  | pra (ra : Byte) (a : RegIdx) (n : Byte) (ha : regIndex s.cfg ra = some a) :
      ExecEffect s (.pra ra) ((s.emit (.char (s.reg a))).setPc n)
  | hlt (n : Byte) : ExecEffect s .hlt ({ s with halted := true }.setPc n)

theorem effect_of_withReg (i : Instr) (ra : Byte) (s t : State) (f : RegIdx → State) (h : withReg ra s f = .next t)
    (hf : ∀ a, regIndex s.cfg ra = some a → ExecEffect s i (f a)) : ExecEffect s i t := by
  rcases withReg_next ra s t f h with ⟨_, rfl⟩ | ⟨a, ha, rfl⟩
  · exact .fault i _ _
  · exact hf a ha

theorem effect_of_withRegs (i : Instr) (ra rb : Byte) (s t : State) (f : RegIdx → RegIdx → State)
    (h : withRegs ra rb s f = .next t)
    (hf : ∀ a b, regIndex s.cfg ra = some a → regIndex s.cfg rb = some b → ExecEffect s i (f a b)) :
    ExecEffect s i t := by
  rcases withRegs_next ra rb s t f h with ⟨x, rfl, _⟩ | ⟨a, b, ha, hb, rfl⟩
  · exact .fault i _ _
  · exact hf a b ha hb

theorem effect_of_aluBinary (i : Instr) (f : Byte → Byte → Byte) (ra rb : Byte) (s t : State) (hi : WritesReg i ra)
    (h : aluBinary f ra rb s = .next t) : ExecEffect s i t :=
  effect_of_withRegs i ra rb s t _ h fun a _ ha _ => .writesReg i ra a _ _ hi ha

theorem effect_of_aluUnary (i : Instr) (f : Byte → Byte) (ra : Byte) (s t : State) (hi : WritesReg i ra)
    (h : aluUnary f ra s = .next t) : ExecEffect s i t :=
  effect_of_withReg i ra s t _ h fun a ha => .writesReg i ra a _ _ hi ha

theorem effect_of_aluDivide (i : Instr) (f : Byte → Byte → Byte) (ra rb : Byte) (s t : State) (hi : WritesReg i ra)
    (h : aluDivide f ra rb s = .next t) : ExecEffect s i t :=
  effect_of_withRegs i ra rb s t _ h fun a b ha _ => by
    split
    · exact .fault i _ _
    · exact .writesReg i ra a _ _ hi ha

theorem effect_of_jumpIf (i : Instr) (cond : Bool) (ra : Byte) (s t : State) (hi : WritesOnlyPc i)
    (h : jumpIf cond ra s = .next t) : ExecEffect s i t :=
  effect_of_withReg i ra s t _ h fun a _ => by
    split
    · exact .onlyPc i _ hi
    · exact .onlyPc i _ hi

/-- Every next state of an instruction has one of the shapes. -/
theorem exec_effect (i : Instr) (s t : State) (h : exec i s = .next t) : ExecEffect s i t := by
  cases i with
  | nop => cases h; exact .onlyPc _ _ .nop
  | hlt => cases h; exact .hlt _
  | ret =>
    cases h
    split
    · next e => exact .ret e
    · exact .fault _ _ _
  | iret =>
    cases h
    split
    · next e => exact .iret e
    · exact .fault _ _ _
  | pra ra => exact effect_of_withReg _ ra s t _ h fun a ha => .pra ra a _ ha
  | prn ra => exact effect_of_withReg _ ra s t _ h fun a ha => .prn ra a _ ha
  | call ra =>
    refine effect_of_withReg _ ra s t _ h fun a ha => ?_
    split
    · next e => exact .call ra a _ _ ha e
    · exact .fault _ _ _
  | int ra =>
    refine effect_of_withReg _ ra s t _ h fun a ha => ?_
    split
    · exact .int ra a _ _ ha rfl
    · exact .fault _ _ _
  | pop ra =>
    refine effect_of_withReg _ ra s t _ h fun a ha => ?_
    split
    · next e => exact .pop ra a _ ha e
    · exact .fault _ _ _
  | push ra =>
    refine effect_of_withReg _ ra s t _ h fun a ha => ?_
    split
    · next e => exact .push ra a _ _ ha e
    · exact .fault _ _ _
  | jmp ra => exact effect_of_withReg _ ra s t _ h fun a _ => .onlyPc _ _ (.jmp ra)
  | jeq ra => exact effect_of_jumpIf _ _ ra s t (.jeq ra) h
  | jne ra => exact effect_of_jumpIf _ _ ra s t (.jne ra) h
  | jlt ra => exact effect_of_jumpIf _ _ ra s t (.jlt ra) h
  | jgt ra => exact effect_of_jumpIf _ _ ra s t (.jgt ra) h
  | not ra => exact effect_of_aluUnary _ _ ra s t (.not ra) h
  | inc ra => exact effect_of_aluUnary _ (· + 1) ra s t (.inc ra) h
  | dec ra => exact effect_of_aluUnary _ (· - 1) ra s t (.dec ra) h
  | ld ra rb => exact effect_of_withRegs _ ra rb s t _ h fun a _ ha _ => .writesReg _ ra a _ _ (.ld ra rb) ha
  | ldi ra imm8 => exact effect_of_withReg _ ra s t _ h fun a ha => .writesReg _ ra a _ _ (.ldi ra imm8) ha
  | st ra rb => exact effect_of_withRegs _ ra rb s t _ h fun a b ha hb => .st ra rb a b _ ha hb
  | cmp ra rb => exact effect_of_withRegs _ ra rb s t _ h fun a b _ _ => .cmp ra rb _ _
  | add ra rb => exact effect_of_aluBinary _ _ ra rb s t (.add ra rb) h
  | sub ra rb => exact effect_of_aluBinary _ _ ra rb s t (.sub ra rb) h
  | mul ra rb => exact effect_of_aluBinary _ _ ra rb s t (.mul ra rb) h
  | div ra rb => exact effect_of_aluDivide _ _ ra rb s t (.div ra rb) h
  | mod ra rb => exact effect_of_aluDivide _ _ ra rb s t (.mod ra rb) h
  | or ra rb => exact effect_of_aluBinary _ _ ra rb s t (.or ra rb) h
  | xor ra rb => exact effect_of_aluBinary _ _ ra rb s t (.xor ra rb) h
  | and ra rb => exact effect_of_aluBinary _ _ ra rb s t (.and ra rb) h
  | reservedAa3 opcode =>
    simp only [exec, execReservedAa3] at h
    split at h
    · cases h; exact .onlyPc _ _ (.reserved opcode)
    · cases h; exact .fault _ _ _

/-- Every instruction answers a next state. -/
theorem exec_answers (i : Instr) (s : State) : ∃ t, exec i s = .next t := by
  cases i with
  | nop | hlt | ret | iret => exact ⟨_, rfl⟩
  | pra ra | prn ra | call ra | int ra | pop ra | push ra => exact withReg_answers ra s _
  | jmp ra | jeq ra | jne ra | jlt ra | jgt ra => exact withReg_answers ra s _
  | not ra | inc ra | dec ra => exact withReg_answers ra s _
  | ldi ra _ => exact withReg_answers ra s _
  | ld ra rb | st ra rb | cmp ra rb => exact withRegs_answers ra rb s _
  | add ra rb | sub ra rb | mul ra rb | div ra rb | mod ra rb => exact withRegs_answers ra rb s _
  | or ra rb | xor ra rb | and ra rb => exact withRegs_answers ra rb s _
  | reservedAa3 opcode =>
    simp only [exec, execReservedAa3]
    split
    · exact ⟨_, rfl⟩
    · exact ⟨_, rfl⟩

/-- Executing a list goes on from the first instruction's next state. -/
theorem execAll_cons (i : Instr) (rest : List Instr) (s t : State) (h : exec i s = .next t) :
    execAll (i :: rest) s = execAll rest t := by
  simp only [execAll, h]

/-- Executing two lists one after the other. -/
theorem execAll_append (xs ys : List Instr) : ∀ s t : State, execAll xs s = .next t →
    execAll (xs ++ ys) s = execAll ys t := by
  induction xs with
  | nil => intro s t h; cases h; rfl
  | cons x xs ih =>
    intro s t h
    obtain ⟨u, hu⟩ := exec_answers x s
    rw [execAll_cons x xs s u hu] at h
    exact (execAll_cons x (xs ++ ys) s u hu).trans (ih u t h)

/-! ### The mirror (R153): what it leaves in every field -/

theorem State.mirror_eq (s : State) (v : Byte) :
    s.mirror v = { s with regs := if s.cfg.pushMirrorsR7 then s.regs.set 7 v else s.regs } := by
  unfold State.mirror
  cases s.cfg.pushMirrorsR7 <;> rfl

theorem State.mirror_reg (s : State) (v : Byte) (r : RegIdx) :
    (s.mirror v).reg r = if s.cfg.pushMirrorsR7 = true ∧ r = 7 then v else s.reg r := by
  unfold State.mirror
  split
  · next h => simp [h, State.setReg_reg]
  · next h => simp [h]

theorem State.mirror_reg_ne (s : State) (v : Byte) (r : RegIdx) (h : ¬ (s.cfg.pushMirrorsR7 = true ∧ r = 7)) :
    (s.mirror v).reg r = s.reg r := by
  unfold State.mirror
  split
  · next e => exact State.setReg_reg_ne s 7 r v fun hr => h ⟨e, hr⟩
  · rfl

@[simp] theorem State.mirror_pc (s : State) (v : Byte) : (s.mirror v).pc = s.pc := by rw [State.mirror_eq]
@[simp] theorem State.mirror_sp (s : State) (v : Byte) : (s.mirror v).sp = s.sp := by rw [State.mirror_eq]
@[simp] theorem State.mirror_fl (s : State) (v : Byte) : (s.mirror v).fl = s.fl := by rw [State.mirror_eq]
@[simp] theorem State.mirror_im (s : State) (v : Byte) : (s.mirror v).im = s.im := by rw [State.mirror_eq]
@[simp] theorem State.mirror_is (s : State) (v : Byte) : (s.mirror v).is = s.is := by rw [State.mirror_eq]
@[simp] theorem State.mirror_iip (s : State) (v : Byte) : (s.mirror v).iip = s.iip := by rw [State.mirror_eq]
@[simp] theorem State.mirror_ir (s : State) (v : Byte) : (s.mirror v).ir = s.ir := by rw [State.mirror_eq]
@[simp] theorem State.mirror_opa (s : State) (v : Byte) : (s.mirror v).opa = s.opa := by rw [State.mirror_eq]
@[simp] theorem State.mirror_opb (s : State) (v : Byte) : (s.mirror v).opb = s.opb := by rw [State.mirror_eq]
@[simp] theorem State.mirror_halted (s : State) (v : Byte) : (s.mirror v).halted = s.halted := by rw [State.mirror_eq]
@[simp] theorem State.mirror_fault (s : State) (v : Byte) : (s.mirror v).fault = s.fault := by rw [State.mirror_eq]
@[simp] theorem State.mirror_out (s : State) (v : Byte) : (s.mirror v).out = s.out := by rw [State.mirror_eq]
@[simp] theorem State.mirror_mem (s : State) (v : Byte) : (s.mirror v).mem = s.mem := by rw [State.mirror_eq]
@[simp] theorem State.mirror_cfg (s : State) (v : Byte) : (s.mirror v).cfg = s.cfg := by rw [State.mirror_eq]
@[simp] theorem State.mirror_readMem (s : State) (v x : Byte) : (s.mirror v).readMem x = s.readMem x := by
  rw [State.mirror_eq]; rfl

/-! ### The return from an interrupt (R191): what it leaves in every field -/

@[simp] theorem interruptReturn_sp (s : State) : (interruptReturn s).sp = s.sp + 9 := by rw [interruptReturn_eq]
@[simp] theorem interruptReturn_fl (s : State) : (interruptReturn s).fl = s.readMem (s.sp + 7) := by
  rw [interruptReturn_eq]
@[simp] theorem interruptReturn_pc (s : State) : (interruptReturn s).pc = s.readMem (s.sp + 8) := by
  rw [interruptReturn_eq]
@[simp] theorem interruptReturn_im (s : State) : (interruptReturn s).im = s.im := by rw [interruptReturn_eq]
@[simp] theorem interruptReturn_is (s : State) : (interruptReturn s).is = s.is := by rw [interruptReturn_eq]
@[simp] theorem interruptReturn_iip (s : State) : (interruptReturn s).iip = false := by rw [interruptReturn_eq]
@[simp] theorem interruptReturn_ir (s : State) : (interruptReturn s).ir = s.ir := by rw [interruptReturn_eq]
@[simp] theorem interruptReturn_opa (s : State) : (interruptReturn s).opa = s.opa := by rw [interruptReturn_eq]
@[simp] theorem interruptReturn_opb (s : State) : (interruptReturn s).opb = s.opb := by rw [interruptReturn_eq]
@[simp] theorem interruptReturn_halted (s : State) : (interruptReturn s).halted = s.halted := by
  rw [interruptReturn_eq]
@[simp] theorem interruptReturn_fault (s : State) : (interruptReturn s).fault = s.fault := by rw [interruptReturn_eq]
@[simp] theorem interruptReturn_out (s : State) : (interruptReturn s).out = s.out := by rw [interruptReturn_eq]
@[simp] theorem interruptReturn_mem (s : State) : (interruptReturn s).mem = s.mem := by rw [interruptReturn_eq]
@[simp] theorem interruptReturn_cfg (s : State) : (interruptReturn s).cfg = s.cfg := by rw [interruptReturn_eq]
@[simp] theorem interruptReturn_readMem (s : State) (x : Byte) : (interruptReturn s).readMem x = s.readMem x := by
  rw [interruptReturn_eq]; rfl

end Sys2Proof.Machine
end

