-- ==== Sys2Proof/Laws/PerInstr.lean ====
section
/-! SUPPORT. The statements made for every instruction, one lemma a constructor. `EncodedLength`: the encoding of a
well-formed instruction is `1 + AA` bytes, AA the top two bits of its first byte (30_encoding.md R70). -/

namespace Sys2Proof.Laws.EncodedLength

/-- The encoding of `i` under a legal table is one opcode byte and `AA` operand bytes (R70). -/
def Statement (i : Instr) : Prop :=
  ∀ t : OpcodeTable, t.valid = true → i.wf = true →
    ∃ opcode operands, encode t i = opcode :: operands ∧ operands.length = (argCount opcode).toNat

/-- An instruction of the table: its first byte is its mnemonic's, and its operand bytes are as many as its format
has. -/
theorem of_mnemonic (i : Instr) (m : Mnemonic) (operands : List Byte)
    (he : ∀ t, encode t i = t.byteOf m :: operands) (hl : operands.length = m.format.argCount.toNat) : Statement i :=
  fun t ht _ => ⟨t.byteOf m, operands, he t, by rw [hl, t.argCount_byteOf ht m]⟩

theorem nop : Statement .nop := of_mnemonic _ .nop [] (fun _ => rfl) rfl
theorem hlt : Statement .hlt := of_mnemonic _ .hlt [] (fun _ => rfl) rfl
theorem ret : Statement .ret := of_mnemonic _ .ret [] (fun _ => rfl) rfl
theorem iret : Statement .iret := of_mnemonic _ .iret [] (fun _ => rfl) rfl
theorem pra (ra : Byte) : Statement (.pra ra) := of_mnemonic _ .pra [ra] (fun _ => rfl) rfl
theorem prn (ra : Byte) : Statement (.prn ra) := of_mnemonic _ .prn [ra] (fun _ => rfl) rfl
theorem call (ra : Byte) : Statement (.call ra) := of_mnemonic _ .call [ra] (fun _ => rfl) rfl
theorem int (ra : Byte) : Statement (.int ra) := of_mnemonic _ .int [ra] (fun _ => rfl) rfl
theorem pop (ra : Byte) : Statement (.pop ra) := of_mnemonic _ .pop [ra] (fun _ => rfl) rfl
theorem push (ra : Byte) : Statement (.push ra) := of_mnemonic _ .push [ra] (fun _ => rfl) rfl
theorem jmp (ra : Byte) : Statement (.jmp ra) := of_mnemonic _ .jmp [ra] (fun _ => rfl) rfl
theorem jeq (ra : Byte) : Statement (.jeq ra) := of_mnemonic _ .jeq [ra] (fun _ => rfl) rfl
theorem jne (ra : Byte) : Statement (.jne ra) := of_mnemonic _ .jne [ra] (fun _ => rfl) rfl
theorem jlt (ra : Byte) : Statement (.jlt ra) := of_mnemonic _ .jlt [ra] (fun _ => rfl) rfl
theorem jgt (ra : Byte) : Statement (.jgt ra) := of_mnemonic _ .jgt [ra] (fun _ => rfl) rfl
theorem not (ra : Byte) : Statement (.not ra) := of_mnemonic _ .not [ra] (fun _ => rfl) rfl
theorem inc (ra : Byte) : Statement (.inc ra) := of_mnemonic _ .inc [ra] (fun _ => rfl) rfl
theorem dec (ra : Byte) : Statement (.dec ra) := of_mnemonic _ .dec [ra] (fun _ => rfl) rfl
theorem ld (ra rb : Byte) : Statement (.ld ra rb) := of_mnemonic _ .ld [ra, rb] (fun _ => rfl) rfl
theorem ldi (ra imm8 : Byte) : Statement (.ldi ra imm8) := of_mnemonic _ .ldi [ra, imm8] (fun _ => rfl) rfl
theorem st (ra rb : Byte) : Statement (.st ra rb) := of_mnemonic _ .st [ra, rb] (fun _ => rfl) rfl
theorem cmp (ra rb : Byte) : Statement (.cmp ra rb) := of_mnemonic _ .cmp [ra, rb] (fun _ => rfl) rfl
theorem add (ra rb : Byte) : Statement (.add ra rb) := of_mnemonic _ .add [ra, rb] (fun _ => rfl) rfl
theorem sub (ra rb : Byte) : Statement (.sub ra rb) := of_mnemonic _ .sub [ra, rb] (fun _ => rfl) rfl
theorem mul (ra rb : Byte) : Statement (.mul ra rb) := of_mnemonic _ .mul [ra, rb] (fun _ => rfl) rfl
theorem div (ra rb : Byte) : Statement (.div ra rb) := of_mnemonic _ .div [ra, rb] (fun _ => rfl) rfl
theorem mod (ra rb : Byte) : Statement (.mod ra rb) := of_mnemonic _ .mod [ra, rb] (fun _ => rfl) rfl
theorem or (ra rb : Byte) : Statement (.or ra rb) := of_mnemonic _ .or [ra, rb] (fun _ => rfl) rfl
theorem xor (ra rb : Byte) : Statement (.xor ra rb) := of_mnemonic _ .xor [ra, rb] (fun _ => rfl) rfl
theorem and (ra rb : Byte) : Statement (.and ra rb) := of_mnemonic _ .and [ra, rb] (fun _ => rfl) rfl

theorem reservedAa3 (opcode : Byte) : Statement (.reservedAa3 opcode) := fun _ _ hw =>
  ⟨opcode, [0, 0, 0], rfl, by
    have : argCount opcode = 3 := (argCount_eq_three_iff opcode).mpr (of_decide_eq_true hw)
    rw [this]
    rfl⟩

end Sys2Proof.Laws.EncodedLength
end

