-- ==== Sys2Proof/Laws/Step.lean ====
section
/-! SUPPORT. What a cycle can do, said once (40_cycle.md R90). -/

namespace Sys2Proof.Machine

theorem step_of_halted (s : State) (h : s.halted = true) : step s = .next s := by
  unfold step
  simp only [h]

theorem step_of_taken (s : State) (n : Line) (h : s.halted = false) (ht : s.takenLine = some n) :
    step s = .next (interruptEntry n s) := by
  unfold step
  simp only [h, ht]

theorem step_of_not_taken (s : State) (h : s.halted = false) (ht : s.takenLine = none) :
    step s = execDecoded s.decoded s.fetch := by
  unfold step
  simp only [h, ht]
  rfl

/-- The cases of a cycle: nothing in a halted machine, an interrupt entry, an instruction, an unknown opcode byte. -/
theorem step_cases (s t : State) (h : step s = .next t) :
    (s.halted = true ∧ t = s) ∨
    (∃ n, s.halted = false ∧ s.takenLine = some n ∧ t = interruptEntry n s) ∨
    (∃ i, s.halted = false ∧ s.takenLine = none ∧ s.decoded = .instr i ∧ exec i s.fetch = .next t) ∨
    (∃ opcode, s.halted = false ∧ s.takenLine = none ∧ s.decoded = .unknown opcode ∧
      t = s.fetch.setPc (s.fetch.pc + instrLength opcode)) := by
  cases hh : s.halted with
  | true =>
    rw [step_of_halted s hh] at h
    exact Or.inl ⟨rfl, (Host.Outcome.next.inj h).symm⟩
  | false =>
    cases ht : s.takenLine with
    | some n =>
      rw [step_of_taken s n hh ht] at h
      exact Or.inr (Or.inl ⟨n, rfl, rfl, (Host.Outcome.next.inj h).symm⟩)
    | none =>
      rw [step_of_not_taken s hh ht] at h
      cases hd : s.decoded with
      | instr i =>
        rw [hd] at h
        exact Or.inr (Or.inr (Or.inl ⟨i, rfl, rfl, rfl, h⟩))
      | unknown opcode =>
        rw [hd] at h
        exact Or.inr (Or.inr (Or.inr ⟨opcode, rfl, rfl, rfl, (Host.Outcome.next.inj h).symm⟩))

theorem State.noInterrupt_iff (s : State) : s.NoInterrupt ↔ s.takenLine = none := (s.takenLine_eq_none_iff).symm

/-- A cycle that takes an interrupt is no instruction cycle. -/
theorem State.not_noInterrupt_of_taken (s : State) (n : Line) (h : s.takenLine = some n) : ¬ s.NoInterrupt := by
  rw [s.noInterrupt_iff, h]
  exact Option.some_ne_none n

theorem State.pushFits_iff_hasRoom (s : State) (k : Nat) : s.pushFits k = true ↔ s.HasRoom k := s.pushFits_iff k

theorem State.popFits_iff_holds (s : State) (k : Nat) : s.popFits k = true ↔ s.Holds k := s.popFits_iff k

end Sys2Proof.Machine
end

