-- ==== Sys2Proof/Tests/Slice0.lean ====
section
/-! SUPPORT. The model's own tests. Expected values come from spec/95_test_vectors.md (its ids stand in the docstrings)
and from the encodings of spec/30_encoding.md; after them one witness theorem per statement that has hypotheses. -/

namespace Sys2Proof.Tests

open Sys2Proof Sys2Proof.Machine

/-! ### Helpers -/

/-- The next state an answer holds. -/
def next? : Result → Option State
  | .next t => some t
  | .fault _ => none
  | .refused _ => none

/-- What a test looks at in the state after one step. -/
def after (s : State) (look : State → List Byte) : Option (List Byte) := (next? (step s)).map look

/-- The reset state with PC, the bytes from PC up, and R0 and R1. -/
def code (pc : Byte) (bytes : List Byte) (r0 r1 : Byte) : State :=
  { State.reset with pc := pc, mem := Memory.writeBytes [] pc bytes, regs := #v[r0, r1, 0, 0, 0, 0, 0, 0] }

/-- `s` with other parameters. -/
def State.using (s : State) (f : Config → Config) : State := { s with cfg := f s.cfg }

/-- The record of the fault that one step halts with. -/
def faultAfter (s : State) : Option FaultRecord := (next? (step s)).bind fun t => if t.halted then t.fault else none

/-- The state of the interrupt vectors, with IM and IS. -/
def ivState (im is : Byte) : State :=
  { State.reset with
    im := im, is := is, pc := 0x10, fl := 0x02
    regs := #v[0x10, 0x11, 0x12, 0x13, 0x14, 0x15, 0x16, 0x17]
    mem := Memory.writeBytes [] 0xF8 [0x80, 0x81, 0x82, 0x83, 0x84, 0x85, 0x86, 0x87] }

/-! ### WellFormed smoke -/

/-- The one check: the opcode byte of the reserved class has AA = 3 (R80). -/
theorem test_ill_formed_refused : (Instr.reservedAa3 0x41).wf = false ∧ (Instr.reservedAa3 0xBF).wf = false := by decide
theorem test_well_formed_accepted :
    (Instr.reservedAa3 0xC0).wf = true ∧ (Instr.reservedAa3 0xFF).wf = true ∧ (Instr.add 0xFF 0).wf = true := by decide

/-! ### Decoding: words written out from table T1 (R76) -/

theorem test_decode_alu_two :
    decode .t1 0b10101000 1 2 = .instr (.add 1 2) ∧ decode .t1 0b10101001 1 2 = .instr (.sub 1 2) ∧
    decode .t1 0b10101010 1 2 = .instr (.mul 1 2) ∧ decode .t1 0b10101011 1 2 = .instr (.div 1 2) ∧
    decode .t1 0b10101100 1 2 = .instr (.mod 1 2) ∧ decode .t1 0b10110001 1 2 = .instr (.or 1 2) ∧
    decode .t1 0b10110010 1 2 = .instr (.xor 1 2) ∧ decode .t1 0b10110011 1 2 = .instr (.and 1 2) ∧
    decode .t1 0b10100000 1 2 = .instr (.cmp 1 2) := by decide
theorem test_decode_alu_one :
    decode .t1 0b01110000 5 9 = .instr (.not 5) ∧ decode .t1 0b01111000 5 9 = .instr (.inc 5) ∧
    decode .t1 0b01111001 5 9 = .instr (.dec 5) := by decide
theorem test_decode_data :
    decode .t1 0b10011000 6 7 = .instr (.ld 6 7) ∧ decode .t1 0b10011001 6 0x81 = .instr (.ldi 6 0x81) ∧
    decode .t1 0b10011010 6 7 = .instr (.st 6 7) := by decide
theorem test_decode_stack :
    decode .t1 0b01001101 3 9 = .instr (.push 3) ∧ decode .t1 0b01001100 3 9 = .instr (.pop 3) := by decide
theorem test_decode_control :
    decode .t1 0b01001000 2 9 = .instr (.call 2) ∧ decode .t1 0b00001001 2 9 = .instr .ret ∧
    decode .t1 0b01010000 2 9 = .instr (.jmp 2) ∧ decode .t1 0b01010001 2 9 = .instr (.jeq 2) ∧
    decode .t1 0b01010010 2 9 = .instr (.jne 2) ∧ decode .t1 0b01010011 2 9 = .instr (.jlt 2) ∧
    decode .t1 0b01010100 2 9 = .instr (.jgt 2) := by decide
theorem test_decode_output :
    decode .t1 0b01000010 4 9 = .instr (.pra 4) ∧ decode .t1 0b01000011 4 9 = .instr (.prn 4) := by decide
theorem test_decode_system :
    decode .t1 0b00000000 4 9 = .instr .nop ∧ decode .t1 0b00000001 4 9 = .instr .hlt ∧
    decode .t1 0b01001010 4 9 = .instr (.int 4) ∧ decode .t1 0b00001011 4 9 = .instr .iret ∧
    decode .t1 0b11000101 4 9 = .instr (.reservedAa3 0xC5) ∧ decode .t1 0b10100001 4 9 = .unknown 0xA1 := by decide

/-- A legal table that is not T1: NOP and HLT trade their bytes, and NOP's byte then means HLT (R77). -/
theorem test_decode_other_table :
    let t : OpcodeTable := { OpcodeTable.t1 with nop := 0x01, hlt := 0x00 }
    t.valid = true ∧ decode t 0x00 0 0 = .instr .hlt ∧ decode t 0x01 0 0 = .instr .nop ∧
    { OpcodeTable.t1 with nop := 0x01 }.valid = false := by decide

/-- The table's numbering of bits: the first byte lowest. -/
theorem test_decode_table_word :
    decodeTableWord 8 0xA8 = some (.add 0 0) ∧ decodeTableWord 24 0x0201A8 = some (.add 1 2) ∧
    decodeTableWord 16 0x054D = some (.push 5) ∧ decodeTableWord 8 0xC5 = some (.reservedAa3 0xC5) ∧
    decodeTableWord 8 0xA1 = none := by decide

/-- `withFetchWord` changes nothing but the bytes at PC of the reset state, and the next step runs them. -/
theorem test_with_fetch_word :
    (State.reset.withFetchWord 24 0x2A0399).mem = [(0, 0x99), (1, 0x03), (2, 0x2A)] ∧
    after (State.reset.withFetchWord 24 0x2A0399) (fun t => [t.reg 3, t.pc]) = some [42, 3] := by decide

/-! ### ALU: A1 to A35 -/

/-- A1, A2. -/
theorem test_add : after (code 0 [0xA8, 0, 1] 200 100) (fun t => [t.reg 0, t.reg 1, t.fl, t.pc]) = some [44, 100, 0, 3] ∧
    after (code 0 [0xA8, 0, 1] 255 1) (fun t => [t.reg 0, t.fl]) = some [0, 0] := by decide
/-- A5, A6. -/
theorem test_sub : after (code 0 [0xA9, 0, 1] 3 5) (fun t => [t.reg 0, t.reg 1, t.pc]) = some [254, 5, 3] ∧
    after (code 0 [0xA9, 0, 1] 0 1) (fun t => [t.reg 0, t.fl]) = some [255, 0] := by decide
/-- A8, A10. -/
theorem test_mul : after (code 0 [0xAA, 0, 1] 8 9) (fun t => [t.reg 0, t.pc]) = some [72, 3] ∧
    after (code 0 [0xAA, 0, 1] 255 255) (fun t => [t.reg 0, t.fl]) = some [1, 0] := by decide
/-- A12, A13. -/
theorem test_div : after (code 0 [0xAB, 0, 1] 7 2) (fun t => [t.reg 0, t.pc]) = some [3, 3] ∧
    after (code 0 [0xAB, 0, 1] 255 1) (fun t => [t.reg 0]) = some [255] := by decide
/-- A15. -/
theorem test_div_by_zero : after (code 0 [0xAB, 0, 1] 7 0) (fun t => [t.reg 0, t.pc]) = some [7, 0] ∧
    faultAfter (code 0 [0xAB, 0, 1] 7 0) = some ⟨.divideByZero, 0, some 0xAB, 1⟩ := by decide
/-- A16, A17. -/
theorem test_mod : after (code 0 [0xAC, 0, 1] 7 3) (fun t => [t.reg 0, t.pc]) = some [1, 3] ∧
    after (code 0 [0xAC, 0, 1] 5 7) (fun t => [t.reg 0]) = some [5] := by decide
/-- A19. -/
theorem test_mod_by_zero : faultAfter (code 0 [0xAC, 0, 1] 7 0) = some ⟨.divideByZero, 0, some 0xAC, 1⟩ := by decide
/-- A20, A21. -/
theorem test_inc : after (code 0 [0x78, 0] 255 0) (fun t => [t.reg 0, t.pc]) = some [0, 2] ∧
    after (code 0 [0x78, 0] 41 0) (fun t => [t.reg 0]) = some [42] := by decide
/-- A22, A23. -/
theorem test_dec : after (code 0 [0x79, 0] 0 0) (fun t => [t.reg 0, t.pc]) = some [255, 2] ∧
    after (code 0 [0x79, 0] 1 0) (fun t => [t.reg 0]) = some [0] := by decide
/-- A24. -/
theorem test_and : after (code 0 [0xB3, 0, 1] 0xF0 0x3C) (fun t => [t.reg 0, t.pc]) = some [0x30, 3] := by decide
/-- A25. -/
theorem test_or : after (code 0 [0xB1, 0, 1] 0xF0 0x3C) (fun t => [t.reg 0, t.pc]) = some [0xFC, 3] := by decide
/-- A26, A27. -/
theorem test_xor : after (code 0 [0xB2, 0, 1] 0xF0 0x3C) (fun t => [t.reg 0, t.pc]) = some [0xCC, 3] ∧
    after (code 0 [0xB2, 0, 0] 0x5A 0) (fun t => [t.reg 0]) = some [0] := by decide
/-- A28, A29. -/
theorem test_not : after (code 0 [0x70, 0] 0x0F 0) (fun t => [t.reg 0, t.pc]) = some [0xF0, 2] ∧
    after (code 0 [0x70, 0] 0x00 0) (fun t => [t.reg 0]) = some [0xFF] := by decide
/-- A30 to A32, from FL = 0x07. -/
theorem test_cmp :
    after { code 0 [0xA0, 0, 1] 5 5 with fl := 7 } (fun t => [t.fl, t.reg 0, t.reg 1, t.pc]) = some [1, 5, 5, 3] ∧
    after { code 0 [0xA0, 0, 1] 6 5 with fl := 7 } (fun t => [t.fl]) = some [2] ∧
    after { code 0 [0xA0, 0, 1] 5 6 with fl := 7 } (fun t => [t.fl]) = some [4] := by decide
/-- A33, A34: unsigned. -/
theorem test_cmp_unsigned :
    after { code 0 [0xA0, 0, 1] 0x80 0x7F with fl := 7 } (fun t => [t.fl]) = some [2] ∧
    after { code 0 [0xA0, 0, 1] 0 255 with fl := 7 } (fun t => [t.fl]) = some [4] := by decide

/-! ### Register operands: RG1 to RG8 -/

/-- The numbers of the codes that R201 to R206 give, as the vectors write them. -/
theorem test_fault_numbers :
    [FaultCode.divideByZero, .stackOverflow, .stackUnderflow, .badRegister, .badInterrupt, .reservedOpcode].map
      FaultCode.number = [1, 2, 3, 4, 5, 6] := rfl

/-- RG1, RG2, RG3, RG5, RG7. -/
theorem test_bad_register :
    faultAfter (code 0 [0xA8, 9, 1] 0 0) = some ⟨.badRegister, 0, some 0xA8, 9⟩ ∧
    faultAfter (code 0 [0xAB, 0, 9] 7 0) = some ⟨.badRegister, 0, some 0xAB, 9⟩ ∧
    faultAfter (code 0 [0xAB, 0x0A, 0x0B] 0 0) = some ⟨.badRegister, 0, some 0xAB, 0x0A⟩ ∧
    faultAfter (code 0 [0x51, 8] 0 0) = some ⟨.badRegister, 0, some 0x51, 8⟩ ∧
    faultAfter (code 0 [0x99, 0xFF, 5] 0 0) = some ⟨.badRegister, 0, some 0x99, 0xFF⟩ := by decide
/-- RG6 and RG7 under mask3. -/
theorem test_mask3 :
    after (State.using (code 0 [0xA8, 9, 1] 0 3) fun c => { c with regIndexMode := .mask3 })
      (fun t => [t.reg 1, t.pc]) = some [6, 3] ∧
    after (State.using (code 0 [0x99, 0xFF, 5] 0 0) fun c => { c with regIndexMode := .mask3 })
      (fun t => [t.reg 7]) = some [5] := by decide

/-! ### Data movement: DM1 to DM8, SY15 -/

/-- DM1, SY15 (an instruction around the end of memory). -/
theorem test_ldi : after (code 0 [0x99, 3, 0x2A] 0 0) (fun t => [t.reg 3, t.pc]) = some [42, 3] ∧
    after (code 0xFE [0x99, 0, 7] 0 0) (fun t => [t.reg 0, t.pc]) = some [7, 1] := by decide
/-- DM4, DM7. -/
theorem test_ld :
    after { code 0 [0x98, 1, 1] 0 0x80 with mem := [(0, 0x98), (1, 1), (2, 1), (0x80, 0x5A)] }
      (fun t => [t.reg 1, t.pc]) = some [0x5A, 3] ∧
    after { code 0 [] 0 0xFF with mem := [(0, 0x98), (2, 1), (0xFF, 3)] } (fun t => [t.reg 0]) = some [3] := by decide
/-- DM5, DM8. -/
theorem test_st :
    after (code 0 [0x9A, 0, 1] 0x90 7) (fun t => [t.readMem 0x90, t.readMem 0x91, t.reg 0, t.pc]) = some [7, 0, 0x90, 3] ∧
    after (code 0 [0x9A, 0, 1] 0x01 0x77) (fun t => [t.readMem 1, t.opa, t.pc]) = some [0x77, 0, 3] := by decide

/-! ### Stack: S1 to S10 -/

/-- S1, S7, S8. -/
theorem test_push :
    after (code 0 [0x4D, 1] 0 5) (fun t => [t.sp, t.readMem 243, t.reg 7, t.pc]) = some [243, 5, 5, 2] ∧
    faultAfter { code 0 [0x4D, 1] 0 5 with sp := 0 } = some ⟨.stackOverflow, 0, some 0x4D, 0⟩ ∧
    after { code 9 [0x4D, 1] 0 5 with sp := 1 } (fun t => [t.sp, t.readMem 0, t.reg 7]) = some [0, 5, 5] := by decide
/-- S2, S3, S9. -/
theorem test_push_parameters :
    after (State.using (code 0 [0x4D, 1] 0 5) fun c => { c with pushMirrorsR7 := false })
      (fun t => [t.sp, t.readMem 243, t.reg 7]) = some [243, 5, 0] ∧
    after (State.using (code 0 [0x4D, 1] 0 5) fun c => { c with pushData := .index })
      (fun t => [t.sp, t.readMem 243, t.reg 7]) = some [243, 1, 1] ∧
    after (State.using { code 0 [0x4D, 1] 0 5 with sp := 0 } fun c => { c with stackOor := .wrap })
      (fun t => [t.sp, t.readMem 255, t.reg 7]) = some [255, 5, 5] := by decide
/-- S5, S6. -/
theorem test_pop :
    after { code 0 [] 0 0 with sp := 243, mem := [(0, 0x4C), (1, 2), (243, 5)] }
      (fun t => [t.reg 2, t.sp, t.readMem 243, t.reg 7, t.pc]) = some [5, 244, 5, 0, 2] ∧
    faultAfter (code 0 [0x4C, 2] 0 0) = some ⟨.stackUnderflow, 0, some 0x4C, 244⟩ := by decide
/-- S10. -/
theorem test_pop_wrap :
    after (State.using { code 0 [] 0 0 with mem := [(0, 0x4C), (1, 2), (244, 6)] } fun c => { c with stackOor := .wrap })
      (fun t => [t.reg 2, t.sp]) = some [6, 245] := by decide

/-! ### Control transfer: J1 to J19 -/

/-- J1, J13. -/
theorem test_jmp : after (code 0x20 [0x50, 0] 0x40 0) (fun t => [t.pc]) = some [0x40] ∧
    after (code 0x20 [0x50, 0] 0x20 0) (fun t => [t.pc]) = some [0x20] := by decide
/-- J2, J3, J12, J14. -/
theorem test_jeq : after { code 0x20 [0x51, 0] 0x40 0 with fl := 1 } (fun t => [t.pc]) = some [0x40] ∧
    after { code 0x20 [0x51, 0] 0x40 0 with fl := 2 } (fun t => [t.pc]) = some [0x22] ∧
    after { code 0x20 [0x51, 0] 0x40 0 with fl := 7 } (fun t => [t.pc]) = some [0x40] ∧
    after (code 0xFE [0x51, 0] 0x40 0) (fun t => [t.pc]) = some [0] := by decide
/-- J5, J6, J7. -/
theorem test_jne : after { code 0x20 [0x52, 0] 0x40 0 with fl := 1 } (fun t => [t.pc]) = some [0x22] ∧
    after { code 0x20 [0x52, 0] 0x40 0 with fl := 4 } (fun t => [t.pc]) = some [0x40] ∧
    after (code 0x20 [0x52, 0] 0x40 0) (fun t => [t.pc]) = some [0x40] := by decide
/-- J8, J9. -/
theorem test_jgt : after { code 0x20 [0x54, 0] 0x40 0 with fl := 2 } (fun t => [t.pc]) = some [0x40] ∧
    after { code 0x20 [0x54, 0] 0x40 0 with fl := 1 } (fun t => [t.pc]) = some [0x22] := by decide
/-- J10, J11. -/
theorem test_jlt : after { code 0x20 [0x53, 0] 0x40 0 with fl := 4 } (fun t => [t.pc]) = some [0x40] ∧
    after { code 0x20 [0x53, 0] 0x40 0 with fl := 2 } (fun t => [t.pc]) = some [0x22] := by decide
/-- J15, J16. -/
theorem test_call :
    after (code 6 [0x48, 0] 0x0F 0) (fun t => [t.readMem 243, t.sp, t.pc, t.reg 7]) = some [8, 243, 0x0F, 0] ∧
    after (code 0xFE [0x48, 0] 0x10 0) (fun t => [t.readMem 243, t.sp, t.pc]) = some [0, 243, 0x10] := by decide
/-- J17. -/
theorem test_call_overflow :
    faultAfter { code 6 [0x48, 0] 0x0F 0 with sp := 0 } = some ⟨.stackOverflow, 6, some 0x48, 0⟩ := by decide
/-- J18, J19. -/
theorem test_ret :
    after { code 0 [] 0 0 with sp := 243, mem := [(0, 9), (243, 8)] } (fun t => [t.pc, t.sp]) = some [8, 244] ∧
    faultAfter (code 0 [9] 0 0) = some ⟨.stackUnderflow, 0, some 9, 244⟩ := by decide

/-! ### Output: O1 to O5 -/

/-- O2, O5. -/
theorem test_prn : (next? (step (code 0 [0x43, 0] 255 0))).map (fun t => (t.out, t.pc)) = some ([.dec 255], 2) := by decide
theorem test_pra : (next? (step (code 0 [0x42, 0] 0x0A 0))).map (fun t => (t.out, t.pc)) = some ([.char 0x0A], 2) := by
  decide

/-! ### System and unknown opcodes: SY1 to SY14 -/

/-- SY1. -/
theorem test_nop : step (code 5 [0x00] 1 2) = .next { (code 5 [0x00] 1 2).fetch with pc := 6 } := by rfl
/-- SY2, RG8. -/
theorem test_hlt :
    (next? (step (code 0x0B [0x01, 0xFF, 0xFF] 0 0))).map (fun t => (t.halted, t.fault)) = some (true, none) ∧
    after (code 0x0B [0x01, 0xFF, 0xFF] 0 0) (fun t => [t.pc]) = some [0x0C] := by decide
/-- SY3, SY4. -/
theorem test_int :
    after { code 6 [0x4A, 0] 0 0 with im := 1 } (fun t => [t.is, t.pc]) = some [1, 8] ∧
    after { code 6 [0x4A, 0] 3 0 with is := 8 } (fun t => [t.is, t.pc]) = some [8, 8] := by decide
/-- SY5. -/
theorem test_int_bad : faultAfter (code 6 [0x4A, 0] 8 0) = some ⟨.badInterrupt, 6, some 0x4A, 8⟩ ∧
    after (code 6 [0x4A, 0] 8 0) (fun t => [t.is, t.pc]) = some [0, 6] := by decide

/-- The state of SY6. -/
def sy6 (iip : Bool) : State :=
  { State.reset with
    sp := 235, iip := iip
    mem := Memory.writeBytes [(0, 0x0B)] 235 [6, 5, 4, 3, 2, 1, 0, 0x04, 0x30] }

/-- SY6, SY8. -/
theorem test_iret : ∀ iip, after (sy6 iip)
    (fun t => [t.reg 6, t.reg 5, t.reg 4, t.reg 3, t.reg 2, t.reg 1, t.reg 0, t.reg 7, t.fl, t.pc, t.sp]) =
      some [6, 5, 4, 3, 2, 1, 0, 0, 4, 0x30, 244] ∧
    (next? (step (sy6 iip))).map (fun t => t.iip) = some false := by decide
/-- SY7. -/
theorem test_iret_underflow : faultAfter { sy6 true with sp := 236 } = some ⟨.stackUnderflow, 0, some 0x0B, 236⟩ := by
  decide
/-- SY9, SY10, SY11. -/
theorem test_unknown : step (code 0x10 [0x41] 1 2) = .next { (code 0x10 [0x41] 1 2).fetch with pc := 0x12 } ∧
    step (code 0x10 [0x05] 1 2) = .next { (code 0x10 [0x05] 1 2).fetch with pc := 0x11 } ∧
    step (code 0x10 [0xA1] 1 2) = .next { (code 0x10 [0xA1] 1 2).fetch with pc := 0x13 } := ⟨rfl, rfl, rfl⟩
/-- SY12, SY14. -/
theorem test_reserved_nop : step (code 0x20 [0xC5] 1 2) = .next { (code 0x20 [0xC5] 1 2).fetch with pc := 0x24 } ∧
    step (code 0xFE [0xFF] 1 2) = .next { (code 0xFE [0xFF] 1 2).fetch with pc := 0x02 } := ⟨rfl, rfl⟩
/-- SY13. -/
theorem test_reserved_fault :
    faultAfter (State.using (code 0x20 [0xC5] 1 2) fun c => { c with aa3Mode := .fault }) =
      some ⟨.reservedOpcode, 0x20, some 0xC5, 0xC5⟩ := by decide

/-! ### Interrupts: IV1 to IV10 -/

/-- IV1 and IV5: no entry, the byte pending as before. -/
theorem test_no_entry : after (ivState 0 1) (fun t => [t.is, t.sp, t.pc]) = some [1, 244, 0x11] ∧
    after { ivState 1 1 with iip := true } (fun t => [t.is, t.sp, t.pc]) = some [1, 244, 0x11] := by decide
/-- IV2. -/
theorem test_entry :
    after (ivState 1 1) (fun t => [t.is, t.sp, t.readMem 243, t.readMem 242, t.readMem 241, t.readMem 240, t.readMem 235,
      t.readMem 234, t.pc, t.reg 6, t.fl]) = some [0, 235, 0x10, 0x02, 0x10, 0x11, 0x16, 0, 0x80, 0x16, 0x02] ∧
    (next? (step (ivState 1 1))).map (fun t => t.iip) = some true := by decide
/-- IV3, IV4, IV10: the lowest enabled line. -/
theorem test_entry_line : after (ivState 6 6) (fun t => [t.is, t.pc]) = some [4, 0x81] ∧
    after (ivState 0xFF 0x80) (fun t => [t.is, t.pc]) = some [0, 0x87] ∧
    after (ivState 2 3) (fun t => [t.is, t.pc]) = some [1, 0x81] := by decide
/-- IV6. -/
theorem test_halted_takes_none :
    step { ivState 1 1 with halted := true } = .next { ivState 1 1 with halted := true } := rfl
/-- IV7, IV8. -/
theorem test_entry_room :
    step { ivState 1 1 with sp := 8 } =
      .next { ivState 1 1 with sp := 8, halted := true, fault := some ⟨.stackOverflow, 0x10, none, 8⟩ } ∧
    after { ivState 1 1 with sp := 9 } (fun t => [t.sp, t.readMem 8, t.readMem 0]) = some [0, 0x10, 0x16] :=
  ⟨rfl, by decide⟩
/-- IV9. -/
theorem test_entry_direct :
    after (State.using (ivState 1 1) fun c => { c with vectorMode := .direct #v[0x55, 1, 2, 3, 4, 5, 6, 7] })
      (fun t => [t.pc]) = some [0x55] := by decide

/-! ### Reset: RS1 to RS9 -/

/-- RS2 to RS7. -/
theorem test_reset : (State.reset.pc, State.reset.sp, State.reset.fl, State.reset.im, State.reset.is) = (0, 244, 0, 0, 0) ∧
    (State.reset.iip, State.reset.halted, State.reset.fault, State.reset.out) = (false, false, none, []) := by decide
/-- RS9. -/
theorem test_reset_entry :
    after ((State.launch defaultConfig 1 []).raiseLine 0) (fun t => [t.readMem 243, t.sp, t.pc]) = some [0, 235, 0] := by
  decide

/-! ### Witnesses: concrete states and operands that meet the hypotheses of each statement together -/

/-- A state whose next instruction is ADD R0, R1. -/
def wAdd : State := code 0 [0xA8, 0, 1] 200 100
/-- The same inside a handler with an enabled line pending, which is not taken. -/
def wHandler : State := { wAdd with iip := true, im := 1, is := 1 }
/-- The reset state with another stack pointer. -/
def wSp (sp : Byte) : State := { State.reset with sp := sp }
/-- The reset state under STACK_OOR = wrap. -/
def wWrap : State := State.using State.reset fun c => { c with stackOor := .wrap }
/-- The reset state under REG_INDEX_MODE = mask3. -/
def wMask3 : State := State.using State.reset fun c => { c with regIndexMode := .mask3 }
/-- The reset state under AA3_MODE = fault. -/
def wAa3Fault : State := State.using State.reset fun c => { c with aa3Mode := .fault }
/-- The reset state under PUSH_DATA = index. -/
def wIndex : State := State.using State.reset fun c => { c with pushData := .index }

theorem witness_DecodeOfEncodeGivesInstruction :
    OpcodeTable.t1.valid = true ∧ (Instr.reservedAa3 0xC0).wf = true ∧ (Instr.add 7 8).wf = true := by decide
theorem witness_EncodeOfDecodedGivesBytes :
    OpcodeTable.t1.valid = true ∧
    (decode .t1 0xA8 1 2 = .instr (.add 1 2) ∧ (Instr.add 1 2).mnemonic ≠ none) ∧
    (decode .t1 0xC0 1 2 = .instr (.reservedAa3 0xC0) ∧ (Instr.reservedAa3 0xC0).mnemonic = none) := by decide
theorem witness_DecoderReadsTheOpcodeByte :
    OpcodeTable.t1.valid = true ∧ (decodeOpcode .t1 0xA8).ident = some .add ∧ (decodeOpcode .t1 0xA1).ident = none := by
  decide
theorem witness_UnusedLatchedBytesDecideNothing :
    OpcodeTable.t1.valid = true ∧ (0x3F : Byte).toNat / 64 = 0 ∧ (0xC0 : Byte).toNat / 64 = 3 ∧
    (0x40 : Byte).toNat / 64 = 1 := by decide
theorem witness_StepRunsDecodedInstruction :
    (wAdd.halted = false ∧ wAdd.NoInterrupt ∧ wAdd.decoded = .instr (.add 0 1)) ∧
    (wHandler.halted = false ∧ wHandler.NoInterrupt ∧ wHandler.decoded = .instr (.add 0 1)) := by
  unfold State.NoInterrupt; decide
theorem witness_HaltedMachineDoesNotChange : { ivState 1 1 with halted := true }.halted = true := rfl
/-- 0xA1 and 0xBF (AA = 2) are unknown; 0xC0 is not below AA = 3. -/
theorem witness_UnknownOpcodeOnlyAdvancesPc :
    (code 0x10 [0xBF] 1 2).halted = false ∧ (code 0x10 [0xBF] 1 2).NoInterrupt ∧
    (∀ m, (code 0x10 [0xBF] 1 2).cfg.opcodes.byteOf m ≠ (code 0x10 [0xBF] 1 2).readMem (code 0x10 [0xBF] 1 2).pc) ∧
    ((code 0x10 [0xBF] 1 2).readMem (code 0x10 [0xBF] 1 2).pc).toNat / 64 < 3 :=
  ⟨rfl, Or.inr rfl, fun m => by cases m <;> decide, by decide⟩
theorem witness_ReservedOpcodeFollowsAa3Mode :
    (State.reset.cfg.opcodes.valid = true ∧ 0xC0 ≤ (0xC0 : Byte).toNat ∧ State.reset.cfg.aa3Mode = .nop) ∧
    (wAa3Fault.cfg.opcodes.valid = true ∧ 0xC0 ≤ (0xFF : Byte).toNat ∧ wAa3Fault.cfg.aa3Mode = .fault) := by decide

/-- The operand bytes 7 and 8, on either side of the last register, and 255; under mask3 each names a register. -/
theorem witness_operand_bytes :
    (regIndex State.reset.cfg 0 = some 0 ∧ regIndex State.reset.cfg 7 = some 7 ∧ regIndex State.reset.cfg 8 = none ∧
      regIndex State.reset.cfg 255 = none) ∧
    (regIndex wMask3.cfg 8 = some 0 ∧ regIndex wMask3.cfg 255 = some 7) := by decide
theorem witness_AddSubMulWrapModulo256 : regIndex wAdd.cfg 8 = none ∧
    (regIndex wAdd.cfg 7 = some 7 ∧ regIndex wAdd.cfg 8 = none) ∧
    (regIndex wAdd.cfg 0 = some 0 ∧ regIndex wAdd.cfg 7 = some 7) := by decide
theorem witness_DivModUnsignedOrFault : regIndex wAdd.cfg 8 = none ∧
    (regIndex wAdd.cfg 7 = some 7 ∧ regIndex wAdd.cfg 8 = none) ∧
    (regIndex wAdd.cfg 0 = some 0 ∧ regIndex wAdd.cfg 2 = some 2 ∧ (wAdd.reg 2).toNat = 0) ∧
    (regIndex wAdd.cfg 0 = some 0 ∧ regIndex wAdd.cfg 1 = some 1 ∧ (wAdd.reg 1).toNat ≠ 0) := by decide
theorem witness_IncDecNotWriteOneRegister : regIndex wAdd.cfg 8 = none ∧ regIndex wAdd.cfg 7 = some 7 := by decide
theorem witness_AndOrXorAreBitwise : regIndex wAdd.cfg 255 = none ∧
    (regIndex wAdd.cfg 7 = some 7 ∧ regIndex wAdd.cfg 255 = none) ∧
    (regIndex wAdd.cfg 7 = some 7 ∧ regIndex wAdd.cfg 7 = some 7) := by decide
theorem witness_CmpSetsExactlyOneFlag : regIndex wAdd.cfg 8 = none ∧
    (regIndex wAdd.cfg 0 = some 0 ∧ regIndex wAdd.cfg 9 = none) ∧
    (regIndex wAdd.cfg 0 = some 0 ∧ regIndex wAdd.cfg 1 = some 1) := by decide
theorem witness_LdiLdWriteTheirDestination : regIndex wAdd.cfg 8 = none ∧
    (regIndex wAdd.cfg 0 = some 0 ∧ regIndex wAdd.cfg 8 = none) ∧
    (regIndex wAdd.cfg 0 = some 0 ∧ regIndex wAdd.cfg 1 = some 1) := by decide
theorem witness_StStoresAtTheAddressRegister : wAdd.mem.wf = true ∧ regIndex wAdd.cfg 8 = none ∧
    (regIndex wAdd.cfg 0 = some 0 ∧ regIndex wAdd.cfg 8 = none) ∧
    (regIndex wAdd.cfg 0 = some 0 ∧ regIndex wAdd.cfg 1 = some 1) := by decide
theorem witness_StoreThenLoadReturnsByte : wAdd.mem.wf = true ∧ regIndex wAdd.cfg 0 = some 0 ∧
    regIndex wAdd.cfg 1 = some 1 ∧ regIndex wAdd.cfg 7 = some 7 := by decide
/-- ST R0, R1 at 0x10 with R0 = 0x13. -/
theorem witness_StoredByteIsFetchedNext :
    let s := code 0x10 [0x9A, 0, 1] 0x13 0x01
    (s.mem.wf = true ∧ s.halted = false ∧ s.NoInterrupt ∧ regIndex s.cfg 0 = some 0 ∧ regIndex s.cfg 1 = some 1 ∧
      s.reg 0 = s.pc + 3) ∧ ∃ t, exec (.st 0 1) s = .next t :=
  ⟨⟨by decide, rfl, Or.inr rfl, by decide, by decide, by decide⟩, _, rfl⟩

/-- SP = 0, 1, 244 and 245 stand on the two sides of each bound; under wrap SP = 0 has room. -/
theorem witness_PushStoresAndMirrors : regIndex State.reset.cfg 8 = none ∧
    (regIndex (wSp 0).cfg 7 = some 7 ∧ ¬ (wSp 0).HasRoom 1) ∧ (regIndex (wSp 245).cfg 0 = some 0 ∧ ¬ (wSp 245).HasRoom 1) ∧
    (regIndex (wSp 1).cfg 0 = some 0 ∧ (wSp 1).HasRoom 1 ∧ (wSp 1).cfg.pushData = .value) ∧
    (regIndex (wSp 244).cfg 0 = some 0 ∧ (wSp 244).HasRoom 1) ∧
    (regIndex wIndex.cfg 0 = some 0 ∧ wIndex.HasRoom 1 ∧ wIndex.cfg.pushData = .index) ∧
    (regIndex wWrap.cfg 0 = some 0 ∧ { wWrap with sp := 0 }.HasRoom 1) := by
  unfold State.HasRoom; decide
theorem witness_PopLoadsFromTheStack : regIndex State.reset.cfg 8 = none ∧
    (regIndex (wSp 244).cfg 7 = some 7 ∧ ¬ (wSp 244).Holds 1) ∧ (regIndex (wSp 243).cfg 0 = some 0 ∧ (wSp 243).Holds 1) ∧
    (regIndex (wSp 0).cfg 0 = some 0 ∧ (wSp 0).Holds 1) ∧ (regIndex wWrap.cfg 0 = some 0 ∧ wWrap.Holds 1) := by
  unfold State.Holds; decide
theorem witness_PushThenPopCopies : (wSp 1).mem.wf = true ∧ (wSp 1).cfg.pushData = .value ∧ (wSp 1).HasRoom 1 ∧
    regIndex (wSp 1).cfg 7 = some 7 ∧ regIndex (wSp 1).cfg 0 = some 0 ∧ (wSp 1).cfg.pushMirrorsR7 = true := by
  unfold State.HasRoom; decide
theorem witness_StackIsLastInFirstOut : (wSp 2).mem.wf = true ∧ (wSp 2).cfg.pushData = .value ∧ (wSp 2).HasRoom 2 ∧
    regIndex (wSp 2).cfg 0 = some 0 ∧ regIndex (wSp 2).cfg 7 = some 7 ∧ regIndex (wSp 2).cfg 2 = some 2 ∧
    regIndex (wSp 2).cfg 3 = some 3 ∧ (2 : RegIdx) ≠ 3 := by
  unfold State.HasRoom; decide
theorem witness_StackHolds244Bytes : State.reset.cfg.stackOor = .fault ∧ State.reset.sp = 244 ∧
    State.reset.fault = none ∧ State.reset.halted = false ∧ regIndex State.reset.cfg 7 = some 7 := by decide

theorem witness_JmpJeqSetOnlyPc : regIndex wAdd.cfg 8 = none ∧ regIndex wAdd.cfg 7 = some 7 := by decide
theorem witness_JneJgtJltSetOnlyPc : regIndex wAdd.cfg 255 = none ∧ regIndex wAdd.cfg 0 = some 0 := by decide
theorem witness_CallAndRetUseTheStack : regIndex State.reset.cfg 8 = none ∧
    (regIndex (wSp 0).cfg 0 = some 0 ∧ ¬ (wSp 0).HasRoom 1) ∧ (regIndex (wSp 1).cfg 7 = some 7 ∧ (wSp 1).HasRoom 1) ∧
    ¬ (wSp 244).Holds 1 ∧ (wSp 243).Holds 1 := by
  unfold State.HasRoom State.Holds; decide
theorem witness_CallThenRetComesBack : (wSp 244).mem.wf = true ∧ (wSp 244).HasRoom 1 ∧
    regIndex (wSp 244).cfg 7 = some 7 := by
  unfold State.HasRoom; decide
theorem witness_PrnPraAppendOneEvent : regIndex wAdd.cfg 8 = none ∧ regIndex wAdd.cfg 7 = some 7 := by decide
/-- The register values 7 and 8. -/
theorem witness_IntRaisesOneLine :
    let s := code 0 [0x4A, 0] 7 8
    regIndex s.cfg 8 = none ∧ (regIndex s.cfg 1 = some 1 ∧ 8 ≤ (s.reg 1).toNat) ∧
    (regIndex s.cfg 0 = some 0 ∧ (s.reg 0).toNat < 8) := by decide
theorem witness_IretRestoresTheFrame : ¬ (wSp 236).Holds 9 ∧ (wSp 235).Holds 9 ∧ wWrap.Holds 9 := by
  unfold State.Holds; decide
theorem witness_NopAdvancesAndHltHalts : ∃ t, exec .hlt (ivState 1 1) = .next t := ⟨_, rfl⟩

theorem witness_InterruptCheckPrecedesFetch :
    ((ivState 1 1).halted = false ∧ (ivState 1 1).iip = false ∧ (ivState 1 1).im &&& (ivState 1 1).is ≠ 0 ∧
      (ivState 1 1).HasRoom 9) ∧
    (wHandler.halted = false ∧ wHandler.iip = true) ∧
    ((ivState 2 1).halted = false ∧ (ivState 2 1).im &&& (ivState 2 1).is = 0) := by
  unfold State.HasRoom; decide
/-- Line 1 with line 2 pending too and SP at the least that fits; line 7 under the direct table. -/
theorem witness_InterruptEntrySavesTheFrame :
    let s := { ivState 6 6 with sp := 9 }
    let d := State.using (ivState 0xFF 0x80) fun c => { c with vectorMode := .direct #v[1, 2, 3, 4, 5, 6, 7, 8] }
    (s.mem.wf = true ∧ s.halted = false ∧ s.iip = false ∧ (s.im &&& s.is).getLsbD (1 : Line) = true ∧
      (∀ m : Line, m < 1 → (s.im &&& s.is).getLsbD m = false) ∧ s.HasRoom 9 ∧ s.cfg.vectorMode = .indirect) ∧
    (d.mem.wf = true ∧ d.halted = false ∧ d.iip = false ∧ (d.im &&& d.is).getLsbD (7 : Line) = true ∧
      (∀ m : Line, m < 7 → (d.im &&& d.is).getLsbD m = false) ∧ d.HasRoom 9 ∧
      d.cfg.vectorMode = .direct #v[1, 2, 3, 4, 5, 6, 7, 8]) := by
  unfold State.HasRoom; decide
theorem witness_InterruptEntryWithoutRoomFaults :
    (∃ s : State, s = { ivState 1 1 with sp := 8 } ∧ s.halted = false ∧ s.iip = false ∧ s.im &&& s.is ≠ 0 ∧
      s.cfg.stackOor = .fault ∧ s.sp.toNat < 9) ∧
    (∃ s : State, s = { ivState 1 1 with sp := 245 } ∧ s.halted = false ∧ s.iip = false ∧ s.im &&& s.is ≠ 0 ∧
      s.cfg.stackOor = .fault ∧ 244 < s.sp.toNat) :=
  ⟨⟨_, rfl, by decide⟩, ⟨_, rfl, by decide⟩⟩
theorem witness_IretUndoesInterruptEntry : (ivState 1 1).mem.wf = true ∧ (ivState 1 1).HasRoom 9 := by
  unfold State.HasRoom; decide
/-- An instruction inside a handler, and the IRET that ends it. -/
theorem witness_InterruptsNeverNest :
    (wHandler.halted = false ∧ wHandler.iip = true ∧ ∃ t, step wHandler = .next t) ∧
    ((sy6 true).halted = false ∧ (sy6 true).iip = true ∧ ∃ t, step (sy6 true) = .next t ∧ t.iip = false) :=
  ⟨⟨rfl, rfl, _, rfl⟩, ⟨rfl, rfl, _, rfl, rfl⟩⟩

/-- A fault of an instruction, a fault of an entry, and a cycle without one. -/
theorem witness_FaultsArePrecise :
    (∃ t, exec (.div 0 1) (code 0 [] 7 0) = .next t ∧ t.fault ≠ (code 0 [] 7 0).fault) ∧
    (∃ t, step { ivState 1 1 with sp := 8 } = .next t ∧ t.fault ≠ none) ∧ (∃ t, step wAdd = .next t ∧ t.fault = none) :=
  ⟨⟨_, rfl, by decide⟩, ⟨_, rfl, by decide⟩, ⟨_, rfl, rfl⟩⟩
/-- One witness for each code. -/
theorem witness_FaultsHaveTheirCause :
    (∃ t, exec (.mod 0 1) (code 0 [] 7 0) = .next t ∧ t.fault = some ⟨.divideByZero, 0, some 0, 1⟩) ∧
    (∃ t, exec (.call 0) (wSp 0) = .next t ∧ t.fault = some ⟨.stackOverflow, 0, some 0, 0⟩) ∧
    (∃ t, exec .iret (wSp 236) = .next t ∧ t.fault = some ⟨.stackUnderflow, 0, some 0, 236⟩) ∧
    (∃ t, exec (.ld 7 8) (wSp 0) = .next t ∧ t.fault = some ⟨.badRegister, 0, some 0, 8⟩) ∧
    (∃ t, exec (.int 0) (code 0 [] 8 0) = .next t ∧ t.fault = some ⟨.badInterrupt, 0, some 0, 8⟩) ∧
    (∃ t, exec (.reservedAa3 0xC5) wAa3Fault = .next t ∧ t.fault = some ⟨.reservedOpcode, 0, some 0, 0xC5⟩) := by
  refine ⟨?_, ?_, ?_, ?_, ?_, ?_⟩ <;> exact ⟨_, rfl, by decide⟩
theorem witness_BadRegisterOperandFaultsFirst :
    (State.reset.cfg.regIndexMode = .fault ∧
      (regOperands (.div 7 8)).find? (fun b => decide (8 ≤ b.toNat)) = some 8) ∧
    (wMask3.cfg.regIndexMode = .mask3 ∧ wMask3.fault = none ∧
      ∃ t r, exec (.div 8 9) wMask3 = .next t ∧ t.fault = some r) :=
  ⟨by decide, rfl, rfl, _, _, rfl, rfl⟩

theorem witness_FlagsChangeOnlyByCmpAndIret :
    (∃ t, step (code 0 [0xA0, 0, 1] 5 6) = .next t ∧ t.fl ≠ (code 0 [0xA0, 0, 1] 5 6).fl) ∧
    (∃ t, step (sy6 true) = .next t ∧ t.fl ≠ (sy6 true).fl) :=
  ⟨⟨_, rfl, by decide⟩, ⟨_, rfl, by decide⟩⟩
theorem witness_MaskIsTheHostsAlone : (∃ t, step wAdd = .next t) ∧
    (∃ t, applyMove (.setMask 0xFF) wAdd = .next t ∧ t.im ≠ wAdd.im) :=
  ⟨⟨_, rfl⟩, ⟨_, rfl, by decide⟩⟩
theorem witness_PendingBitsChangeOnlyByIntAndEntry :
    (∃ t, step (code 6 [0x4A, 0] 7 0) = .next t ∧ (code 6 [0x4A, 0] 7 0).is.getLsbD (7 : Line) = false ∧
      t.is.getLsbD (7 : Line) = true) ∧
    (∃ t, step (ivState 1 1) = .next t ∧ (ivState 1 1).is.getLsbD (0 : Line) = true ∧
      t.is.getLsbD (0 : Line) = false) :=
  ⟨⟨_, rfl, by decide⟩, ⟨_, rfl, by decide⟩⟩
theorem witness_StackPointerMovesOnlyByStackOperations :
    (∃ t, step (code 0 [0x4D, 1] 0 5) = .next t ∧ t.sp ≠ (code 0 [0x4D, 1] 0 5).sp) ∧
    (∃ t, step (ivState 1 1) = .next t ∧ t.sp ≠ (ivState 1 1).sp) :=
  ⟨⟨_, rfl, by decide⟩, ⟨_, rfl, by decide⟩⟩
theorem witness_OutputIsOnlyAppended :
    ∃ t, step (code 0 [0x43, 0] 72 0) = .next t ∧ t.out ≠ (code 0 [0x43, 0] 72 0).out := ⟨_, rfl, by decide⟩
theorem witness_HaltAndFaultAreFinal :
    ∃ s t : State, s = State.faulted State.reset .badRegister 8 ∧ step s = .next t ∧ s.halted = true ∧ s.Inv ∧
      s.fault ≠ none :=
  ⟨_, _, rfl, rfl, rfl, ⟨rfl, by decide, fun _ => by decide, fun _ => rfl⟩, by decide⟩
theorem witness_MemoryChangesOnlyWhereTheTableSays :
    (∃ t, step (code 0 [0x9A, 0, 1] 0x90 7) = .next t ∧ t.readMem 0x90 ≠ (code 0 [0x9A, 0, 1] 0x90 7).readMem 0x90) ∧
    (∃ t, step (ivState 1 1) = .next t ∧ t.readMem 243 ≠ (ivState 1 1).readMem 243) :=
  ⟨⟨_, rfl, by decide⟩, ⟨_, rfl, by decide⟩⟩
theorem witness_LatchesAreLoadedBeforeTheyAreRead : ∃ t, step wAdd = .next t := ⟨_, rfl⟩

theorem witness_RegisterWritingFrame : ∃ t, exec (.ldi 7 5) wAdd = .next t := ⟨_, rfl⟩
theorem witness_NoRegisterNoMemoryFrame : (∃ t, exec (.cmp 0 1) wAdd = .next t) ∧ (∃ t, exec (.prn 0) wAdd = .next t) ∧
    (∃ t, exec (.int 2) wAdd = .next t) ∧ (∃ t, exec (.jmp 0) wAdd = .next t) ∧ (∃ t, exec .hlt wAdd = .next t) :=
  ⟨⟨_, rfl⟩, ⟨_, rfl⟩, ⟨_, rfl⟩, ⟨_, rfl⟩, ⟨_, rfl⟩⟩
theorem witness_StoringFrame :
    (∃ t, exec (.st 0 7) wAdd = .next t ∧ regIndex wAdd.cfg 0 = some 0 ∧ wAdd.storeAddr 0 = 200) ∧
    (∃ t, exec (.st 0 8) wAdd = .next t ∧ regIndex wAdd.cfg 8 = none) ∧
    (∃ t, exec (.call 0) wAdd = .next t ∧ wAdd.pushAddr = 243) ∧
    (∃ t, exec (.push 7) wAdd = .next t ∧ wAdd.pushAddr = 243) ∧
    (∃ t, exec (.push 8) wAdd = .next t ∧ regIndex wAdd.cfg 8 = none) := by
  refine ⟨?_, ?_, ?_, ?_, ?_⟩ <;> exact ⟨_, rfl, by decide⟩
theorem witness_PoppingFrame : (∃ t, exec (.pop 7) (wSp 243) = .next t) ∧ (∃ t, exec .ret (wSp 0) = .next t) ∧
    (∃ t, exec .iret (wSp 235) = .next t) :=
  ⟨⟨_, rfl⟩, ⟨_, rfl⟩, ⟨_, rfl⟩⟩

theorem witness_ResetGivesTheStatedValues : ∃ s, s = State.launch wWrap.cfg 0xFF [(0, 1)] := ⟨_, rfl⟩
theorem witness_FirstCycleFetchesAtZero : (∃ s, s = State.launch defaultConfig 0x80 [(255, 1)]) ∧
    Memory.wf [(255, 1)] = true ∧ (0x80 : Byte).getLsbD (7 : Line) = true := ⟨⟨_, rfl⟩, by decide⟩
theorem witness_StepKeepsInv : wAdd.Inv ∧ ∃ t, step wAdd = .next t :=
  ⟨⟨by decide, by decide, fun _ => by decide, fun h => absurd rfl h⟩, _, rfl⟩
/-- A launch, then an action of the host, then a cycle. -/
theorem witness_ReachableStatesKeepInv : ∃ s, Reachable s ∧ s.cfg.stackOor = .fault ∧ s.iip = true :=
  ⟨_, .move .cycle _ _ (.move (.raise 0) _ _ (.launch defaultConfig 1 [] (by decide) (by decide)) rfl) rfl, rfl, rfl⟩

end Sys2Proof.Tests
end

section
/-! The instruction cycle (40_cycle.md): the cycle of a running machine that takes no interrupt. -/

namespace Sys2Proof.Machine

/-- Bytes that are an instruction's run as that instruction (R93). -/
@[simp] theorem execDecoded_instr (i : Instr) (s : State) : execDecoded (.instr i) s = exec i s := rfl

/-- The instruction cycle in the statements' own premise (R92 to R94). -/
theorem step_of_noInterrupt (s : State) (hrun : s.halted = false) (hno : s.NoInterrupt) :
    step s = execDecoded s.decoded s.fetch :=
  step_of_not_taken s hrun (s.noInterrupt_iff.mp hno)

/-- Settles O6: the latched state of the statement is `State.fetch`, so both parts are the instruction cycle's
equation, the first at a decoded instruction. -/
theorem stepRunsDecodedInstruction : Obligations.StepRunsDecodedInstruction := by
  intro s hrun hno
  have hcycle : step s = execDecoded s.decoded s.fetch := step_of_noInterrupt s hrun hno
  refine ⟨fun i hi => ?_, hcycle⟩
  rw [hcycle, hi, execDecoded_instr, State.fetch]

end Sys2Proof.Machine
end

section
/-! The ALU instructions (41_alu.md): arithmetic modulo 256 is the arithmetic of bytes, and an instruction made of
`aluBinary` or `aluUnary` writes its result and PC alone. -/

namespace Sys2Proof.Machine

/-! ### Arithmetic modulo 256, as operations on bytes -/

/-- `+8` (R112). -/
theorem Byte.ofNat_toNat_add_mod (x y : Byte) : BitVec.ofNat 8 ((x.toNat + y.toNat) % 256) = x + y :=
  BitVec.eq_of_toNat_eq (by simp)

/-- `-8`, the difference lifted by 256 to stay a natural number (R113). -/
theorem Byte.ofNat_toNat_sub_mod (x y : Byte) : BitVec.ofNat 8 ((x.toNat + 256 - y.toNat) % 256) = x - y := by
  bv_omega

/-- `*8` (R114). -/
theorem Byte.ofNat_toNat_mul_mod (x y : Byte) : BitVec.ofNat 8 ((x.toNat * y.toNat) % 256) = x * y :=
  BitVec.eq_of_toNat_eq (by simp)

/-- The increment is the sum with 1 (R117). -/
theorem Byte.ofNat_toNat_add_one_mod (x : Byte) : BitVec.ofNat 8 ((x.toNat + 1) % 256) = x + 1 :=
  Byte.ofNat_toNat_add_mod x 1

/-- The decrement is the difference with 1: `x + 255 = x + 256 - 1` (R118). -/
theorem Byte.ofNat_toNat_add_255_mod (x : Byte) : BitVec.ofNat 8 ((x.toNat + 255) % 256) = x - 1 :=
  Byte.ofNat_toNat_sub_mod x 1

/-- The complement of a byte is its distance from 255 (R123). -/
theorem Byte.ofNat_255_sub_toNat (x : Byte) : BitVec.ofNat 8 (255 - x.toNat) = ~~~x := by
  have hx : x.toNat < 256 := x.isLt
  refine BitVec.eq_of_toNat_eq ?_
  rw [BitVec.toNat_ofNat, BitVec.toNat_not]
  omega

/-! ### The two forms (R110, R111) -/

/-- An instruction that is `aluBinary f` writes `f` of its two registers into the first, and PC + 3. -/
theorem twoRegRule_of_aluBinary (i : Byte → Byte → Instr) (s : State) (f : Byte → Byte → Byte)
    (h : ∀ ra rb, exec (i ra rb) s = aluBinary f ra rb s) :
    TwoRegRule i s fun _ a b => { s with regs := s.regs.set a (f (s.reg a) (s.reg b)), pc := s.pc + 3 } :=
  twoRegRule_of_withRegs i s _ h

/-- An instruction that is `aluUnary f` writes `f` of its register into it, and PC + 2. -/
theorem oneRegRule_of_aluUnary (i : Byte → Instr) (s : State) (f : Byte → Byte)
    (h : ∀ ra, exec (i ra) s = aluUnary f ra s) :
    OneRegRule i s fun _ a => { s with regs := s.regs.set a (f (s.reg a)), pc := s.pc + 2 } :=
  oneRegRule_of_withReg i s _ h

/-! ### The statements -/

/-- Settles O11: the three results modulo 256 are the byte operations that `aluBinary` applies. -/
theorem addSubMulWrapModulo256 : Obligations.AddSubMulWrapModulo256 := by
  intro s
  simp only [Byte.ofNat_toNat_add_mod, Byte.ofNat_toNat_sub_mod, Byte.ofNat_toNat_mul_mod]
  exact ⟨twoRegRule_of_aluBinary .add s (· + ·) fun _ _ => rfl, twoRegRule_of_aluBinary .sub s (· - ·) fun _ _ => rfl,
    twoRegRule_of_aluBinary .mul s (· * ·) fun _ _ => rfl, fun _ _ => ⟨rfl, rfl, rfl⟩⟩

/-- Settles O13: the three results are the byte operations that `aluUnary` applies. -/
theorem incDecNotWriteOneRegister : Obligations.IncDecNotWriteOneRegister := by
  intro s
  simp only [Byte.ofNat_toNat_add_one_mod, Byte.ofNat_toNat_add_255_mod, Byte.ofNat_255_sub_toNat]
  exact ⟨oneRegRule_of_aluUnary .inc s (· + 1) fun _ => rfl, oneRegRule_of_aluUnary .dec s (· - 1) fun _ => rfl,
    oneRegRule_of_aluUnary .not s (~~~ ·) fun _ => rfl, fun _ => ⟨rfl, rfl, rfl⟩⟩

/-- Settles O14: the statement's bitwise operations are the ones `aluBinary` applies. -/
theorem andOrXorAreBitwise : Obligations.AndOrXorAreBitwise := fun s =>
  ⟨twoRegRule_of_aluBinary .and s (· &&& ·) fun _ _ => rfl, twoRegRule_of_aluBinary .or s (· ||| ·) fun _ _ => rfl,
    twoRegRule_of_aluBinary .xor s (· ^^^ ·) fun _ _ => rfl, fun _ _ => ⟨rfl, rfl, rfl⟩⟩

end Sys2Proof.Machine
end

section
/-! The data movement instructions (42_data_movement.md): each is one operand form around one state operation, so its
rule is that form's rule, and what ST leaves in memory is the law of reading after a write. -/

namespace Sys2Proof.Machine

/-- LDI checks its first operand alone: the immediate is data, whatever byte it is (R74, R140). -/
theorem oneRegRule_ldi (s : State) (imm8 : Byte) :
    OneRegRule (fun ra => .ldi ra imm8) s fun _ a => { s with regs := s.regs.set a imm8, pc := s.pc + 3 } :=
  oneRegRule_of_withReg _ s _ fun _ => rfl

/-- LD takes the byte from the memory and the register before it (R97, R141). -/
theorem twoRegRule_ld (s : State) :
    TwoRegRule .ld s fun _ a b => { s with regs := s.regs.set a (s.readMem (s.reg b)), pc := s.pc + 3 } :=
  twoRegRule_of_withRegs .ld s _ fun _ _ => rfl

/-- ST writes memory and PC alone, its address register being operand A (R142). -/
theorem twoRegRule_st (s : State) :
    TwoRegRule .st s fun _ a b => { s with mem := (s.writeMem (s.reg a) (s.reg b)).mem, pc := s.pc + 3 } :=
  twoRegRule_of_withRegs .st s _ fun _ _ => rfl

/-- Settles O16: the rules of LDI and LD, and their opcode bytes in table T1. -/
theorem ldiLdWriteTheirDestination : Obligations.LdiLdWriteTheirDestination := fun s =>
  ⟨oneRegRule_ldi s, twoRegRule_ld s, fun _ _ => ⟨rfl, rfl⟩⟩

/-- Settles O17: ST's rule; that the store reaches no other byte is the law of reading after a write, which needs the
canonical form. -/
theorem stStoresAtTheAddressRegister : Obligations.StStoresAtTheAddressRegister := fun s hwf =>
  ⟨twoRegRule_st s, fun a b x => s.readMem_writeMem (s.reg a) (s.reg b) x hwf, fun _ _ => rfl⟩

end Sys2Proof.Machine
end

section
/-! The jumps (44_control_transfer.md): JMP is the one-register form around a write of PC, and a conditional jump's rule
is the rule of `jumpIf`, once its flag is read as arithmetic on FL. -/

namespace Sys2Proof.Machine

/-- E is the parity of FL, whatever the other seven bits are. -/
theorem State.flagE_iff (s : State) : s.flagE = true ↔ s.fl.toNat % 2 = 1 := by
  have hbit : s.flagE = decide (s.fl.toNat % 2 = 1) := Nat.testBit_zero s.fl.toNat
  rw [hbit, decide_eq_true_iff]

/-- JMP writes PC alone (R161). -/
theorem oneRegRule_jmp (s : State) : OneRegRule .jmp s fun _ a => { s with pc := s.reg a } :=
  oneRegRule_of_withReg .jmp s _ fun _ => rfl

/-- An instruction that is `jumpIf cond` writes PC alone, `R[a]` or PC + 2, and `P` may stand for its condition; the
operand is checked on both paths (R73, R160). -/
theorem oneRegRule_of_jumpIf (i : Byte → Instr) (s : State) (cond : Bool) (P : Prop) [Decidable P]
    (hcond : cond = true ↔ P) (h : ∀ ra, exec (i ra) s = jumpIf cond ra s) :
    OneRegRule i s fun _ a => { s with pc := if P then s.reg a else s.pc + 2 } := by
  refine oneRegRule_of_withReg i s _ fun ra => (h ra).trans (congrArg (withReg ra s) (funext fun a => ?_))
  by_cases hP : P
  · rw [if_pos (hcond.mpr hP), if_pos hP, State.setPc]
  · rw [if_neg (mt hcond.mp hP), if_neg hP, State.advance, State.setPc]

/-- Settles O25: JMP's rule, and the rule of `jumpIf` at the flag E. -/
theorem jmpJeqSetOnlyPc : Obligations.JmpJeqSetOnlyPc := fun s =>
  ⟨oneRegRule_jmp s, oneRegRule_of_jumpIf .jeq s s.flagE _ s.flagE_iff fun _ => rfl, fun _ => ⟨rfl, rfl⟩⟩

end Sys2Proof.Machine
end

section
/-! The output instructions (45_io.md): PRN and PRA are one operand form around `emit`, and differ in the kind of event
they make of the register's byte. -/

namespace Sys2Proof.Machine

/-- An instruction that emits `event` of its register's byte and advances by 2 appends that one event to the trace and
writes nothing else but PC; with a bad operand no event is appended (R180 to R182). -/
theorem oneRegRule_of_emit (i : Byte → Instr) (s : State) (event : Byte → OutEvent)
    (h : ∀ ra, exec (i ra) s = withReg ra s fun a => (s.emit (event (s.reg a))).advance 2) :
    OneRegRule i s fun _ a => { s with out := s.out ++ [event (s.reg a)], pc := s.pc + 2 } :=
  oneRegRule_of_withReg i s _ h

/-- Settles O29: the rule of an emitting instruction, at the decimal event for PRN and the character event for PRA. -/
theorem prnPraAppendOneEvent : Obligations.PrnPraAppendOneEvent := fun s =>
  ⟨oneRegRule_of_emit .prn s .dec fun _ => rfl, oneRegRule_of_emit .pra s .char fun _ => rfl, fun _ => ⟨rfl, rfl⟩⟩

end Sys2Proof.Machine
end

section
/-! The unknown opcode bytes (46_system.md R194): a byte that is no mnemonic's, with AA below 3, decodes as unknown, and
its cycle is the generic increment of PC. -/

namespace Sys2Proof

/-- AA is the quotient of the opcode byte by 64 (R70, R71). -/
theorem argCount_toNat (ir : Byte) : (argCount ir).toNat = ir.toNat / 64 := by
  have hir : ir.toNat < 256 := ir.isLt
  rw [argCount, BitVec.extractLsb'_toNat, Nat.shiftRight_eq_div_pow]
  omega

/-- The length of an instruction as a number (R70). -/
theorem instrLength_toNat (ir : Byte) : (instrLength ir).toNat = 1 + ir.toNat / 64 := by
  rw [instrLength_eq, argCount_toNat]

/-- A byte that is no mnemonic's is not identified, under any table (R75, R79). -/
theorem OpcodeTable.identify_eq_none (t : OpcodeTable) (ir : Byte) (h : ∀ m, t.byteOf m ≠ ir) :
    t.identify ir = none :=
  Option.eq_none_iff_forall_ne_some.mpr fun m hm => h m (t.byteOf_of_identify ir m hm)

/-- A byte that is no mnemonic's and not reserved is unknown, whatever the operand bytes are (R79). -/
theorem decode_unknown (t : OpcodeTable) (ir a b : Byte) (h : ∀ m, t.byteOf m ≠ ir) (haa : ir.toNat / 64 < 3) :
    decode t ir a b = .unknown ir := by
  have hne : argCount ir ≠ 3 := fun h3 => absurd (argCount_toNat ir ▸ congrArg BitVec.toNat h3) (Nat.ne_of_lt haa)
  rw [decode_eq, t.identify_eq_none ir h]
  exact if_neg hne

end Sys2Proof

namespace Sys2Proof.Machine

/-- An unknown opcode byte runs as the generic increment of PC (R95, R194). -/
@[simp] theorem execDecoded_unknown (opcode : Byte) (s : State) :
    execDecoded (.unknown opcode) s = .next (s.setPc (s.pc + instrLength opcode)) := rfl

/-- Settles O8: the fetched bytes decode as unknown, so the cycle is the fetch and the generic increment, whose sum on
bytes is the statement's sum modulo 256. -/
theorem unknownOpcodeOnlyAdvancesPc : Obligations.UnknownOpcodeOnlyAdvancesPc := by
  intro s hrun hno hunknown haa
  have hdecoded : s.decoded = .unknown (s.readMem s.pc) := decode_unknown _ _ _ _ hunknown haa
  rw [step_of_noInterrupt s hrun hno, hdecoded, execDecoded_unknown, ← instrLength_toNat, Byte.ofNat_toNat_add_mod]
  rfl

end Sys2Proof.Machine
end

section
/-! The interrupt check (60_exceptions.md R214, R215): what the cycle's start takes, and what an entry for that line does
to the pending lines and to IIP. -/

namespace Sys2Proof.Machine

/-- A line is to be taken as soon as one is pending and enabled outside a handler (R214). -/
theorem State.exists_takenLine (s : State) (hiip : s.iip = false) (hpending : s.im &&& s.is ≠ 0) :
    ∃ n, s.takenLine = some n :=
  Option.ne_none_iff_exists'.mp fun hnone =>
    (s.takenLine_eq_none_iff.mp hnone).elim (Bool.eq_false_iff.mp hiip) hpending

/-- A line's bit is set at that line alone. -/
theorem lineBit_getLsbD (n k : Line) : (lineBit n).getLsbD k.val = decide (k = n) := by
  revert n k
  decide

/-- Acknowledging a line leaves the other lines pending as they were (R216, D11). -/
theorem State.acknowledge_is_getLsbD_ne (s : State) (n k : Line) (hk : k ≠ n) :
    (s.acknowledge n).is.getLsbD k.val = s.is.getLsbD k.val := by
  rw [State.acknowledge_is, BitVec.getLsbD_and, BitVec.getLsbD_not, lineBit_getLsbD]
  simp [hk]

/-- The pushes and the vector of an entry that fits leave IS as the acknowledgement left it (R216). -/
theorem interruptEntry_is_of_fits (n : Line) (s : State) (h : s.pushFits frameSize = true) :
    (interruptEntry n s).is = (s.acknowledge n).is := by
  rw [interruptEntry_of_fits n s h, State.acknowledge_is]

/-- An entry that does not fit leaves every line pending (R218). -/
theorem interruptEntry_is_of_not_fits (n : Line) (s : State) (h : s.pushFits frameSize = false) :
    (interruptEntry n s).is = s.is := by
  rw [interruptEntry_of_not_fits n s h, State.haltWith_is]

/-- Whether the frame fits or not, the lines not taken stay as they were (R216, R218). -/
theorem interruptEntry_is_getLsbD_ne (n k : Line) (s : State) (hk : k ≠ n) :
    (interruptEntry n s).is.getLsbD k.val = s.is.getLsbD k.val := by
  cases h : s.pushFits frameSize with
  | true => rw [interruptEntry_is_of_fits n s h, s.acknowledge_is_getLsbD_ne n k hk]
  | false => rw [interruptEntry_is_of_not_fits n s h]

/-- An entry whose frame fits begins a handler (R216). -/
theorem interruptEntry_iip_of_hasRoom (n : Line) (s : State) (h : s.HasRoom frameSize) :
    (interruptEntry n s).iip = true := by
  rw [interruptEntry_of_fits n s ((s.pushFits_iff_hasRoom frameSize).mpr h)]

/-- Settles O33: a pending enabled line outside a handler makes the check take one, which is the lowest such line, and the
cycle is its entry; otherwise the check takes none, and the cycle is an instruction cycle. -/
theorem interruptCheckPrecedesFetch : Obligations.InterruptCheckPrecedesFetch := by
  intro s hrun
  refine ⟨fun hiip hpending => ?_, step_of_noInterrupt s hrun⟩
  obtain ⟨n, htaken⟩ := s.exists_takenLine hiip hpending
  obtain ⟨_, hset, hlowest⟩ := (s.takenLine_eq_some_iff n).mp htaken
  exact ⟨n, hset, hlowest, step_of_taken s n hrun htaken, fun k hk => interruptEntry_is_getLsbD_ne n k s hk,
    interruptEntry_iip_of_hasRoom n s⟩

end Sys2Proof.Machine
end

section
/-! Reset (70_reset_and_hazards.md R240, R242, R243): the registers of a launched machine, and reset as the launch with
the default parameters. -/

namespace Sys2Proof.Machine

/-- Reset clears R0 to R7 (R22). -/
@[simp] theorem State.reset_reg (r : RegIdx) : State.reset.reg r = 0 :=
  Vector.getElem_replicate r.isLt

/-- The launch parameters leave R0 to R7 as reset gives them (R240). -/
@[simp] theorem State.launch_reg (cfg : Config) (im0 : Byte) (mem0 : Memory) (r : RegIdx) :
    (State.launch cfg im0 mem0).reg r = 0 :=
  State.reset_reg r

/-- Reset is the launch with the default parameters, the default mask and no listed byte (R242, R243). -/
theorem State.reset_eq_launch : State.reset = State.launch defaultConfig im0Default [] := rfl

/-- Settles O53: a launch replaces only the parameters, the mask and the memory of reset, so its registers are those of
reset and each other item is the value written in reset or in the launch. -/
theorem resetGivesTheStatedValues : Obligations.ResetGivesTheStatedValues := by
  refine ⟨?_, defaultConfig, im0Default, [], State.reset_eq_launch⟩
  rintro cfg im0 mem0 _ rfl
  exact ⟨State.launch_reg cfg im0 mem0, rfl, rfl, rfl, rfl, rfl, rfl, rfl, rfl, rfl, rfl⟩

end Sys2Proof.Machine
end

section
/-! The decoder and the encoder (30_encoding.md R70 to R84): an instruction of the table is its mnemonic with two
operand bytes, of which the format says how many are read and written; every other instruction is of the reserved
class. -/

namespace Sys2Proof

/-! ### Instructions as a mnemonic with operand bytes -/

theorem Instr.eq_instr_of_mnemonic (i : Instr) (m : Mnemonic) (h : i.mnemonic = some m) : ∃ a b, i = m.instr a b := by
  cases i with
  | nop | hlt | ret | iret => cases h; exact ⟨0, 0, rfl⟩
  | pra ra | prn ra | call ra | int ra | pop ra | push ra => cases h; exact ⟨ra, 0, rfl⟩
  | jmp ra | jeq ra | jne ra | jlt ra | jgt ra => cases h; exact ⟨ra, 0, rfl⟩
  | not ra | inc ra | dec ra => cases h; exact ⟨ra, 0, rfl⟩
  | ld ra rb | ldi ra rb | st ra rb | cmp ra rb => cases h; exact ⟨ra, rb, rfl⟩
  | add ra rb | sub ra rb | mul ra rb | div ra rb | mod ra rb => cases h; exact ⟨ra, rb, rfl⟩
  | or ra rb | xor ra rb | and ra rb => cases h; exact ⟨ra, rb, rfl⟩
  | reservedAa3 _ => cases h

theorem Instr.eq_reservedAa3_of_mnemonic (i : Instr) (h : i.mnemonic = none) : ∃ opcode, i = .reservedAa3 opcode := by
  cases i with
  | reservedAa3 opcode => exact ⟨opcode, rfl⟩
  | _ => cases h

@[simp] theorem Mnemonic.mnemonic_instr (m : Mnemonic) (a b : Byte) : (m.instr a b).mnemonic = some m := by
  cases m <;> rfl

theorem Mnemonic.wf_instr (m : Mnemonic) (a b : Byte) : (m.instr a b).wf = true := by
  cases m <;> rfl

/-- A mnemonic reads operand A unless its format has no operand byte, and operand B only if it has two (R72, R84). -/
theorem Mnemonic.instr_congr (m : Mnemonic) (a b a' b' : Byte) (ha : m.format.argCount ≠ 0 → a = a')
    (hb : m.format.argCount = 2 → b = b') : m.instr a b = m.instr a' b' := by
  cases m with
  | nop | hlt | ret | iret => rfl
  | pra | prn | call | int | pop | push | jmp | jeq | jne | jlt | jgt | not | inc | dec =>
    cases ha (by decide)
    rfl
  | ld | ldi | st | cmp | add | sub | mul | div | mod | or | xor | and =>
    cases ha (by decide)
    cases hb rfl
    rfl

/-! ### Encoding and then decoding -/

/-- The encoding is the opcode byte and the operand bytes that the format has (R72). -/
theorem Mnemonic.encode_instr (t : OpcodeTable) (m : Mnemonic) (a b : Byte) :
    encode t (m.instr a b) = t.byteOf m :: [a, b].take m.format.argCount.toNat := by
  cases m <;> rfl

/-- A mnemonic reads its own operand bytes back, whatever follows them. -/
theorem Mnemonic.instr_getD_operands (m : Mnemonic) (a b : Byte) (rest : List Byte) :
    m.instr (([a, b].take m.format.argCount.toNat ++ rest).getD 0 0)
      (([a, b].take m.format.argCount.toNat ++ rest).getD 1 0) = m.instr a b := by
  cases m <;> rfl

/-- Settles O1: an instruction of the table is a mnemonic with its operand bytes, whose opcode byte identifies it and
whose operand bytes are read back; any other is of the reserved class, whose byte has AA = 3. -/
theorem decodeOfEncodeGivesInstruction : Obligations.DecodeOfEncodeGivesInstruction := by
  intro t i rest ht hwf
  cases hm : i.mnemonic with
  | some m =>
    obtain ⟨a, b, rfl⟩ := i.eq_instr_of_mnemonic m hm
    rw [m.encode_instr]
    exact (decode_byteOf t ht m _ _).trans (congrArg Decoded.instr (m.instr_getD_operands a b rest))
  | none =>
    obtain ⟨opcode, rfl⟩ := i.eq_reservedAa3_of_mnemonic hm
    exact decode_reserved t ht opcode _ _ ((argCount_eq_three_iff opcode).mpr (of_decide_eq_true hwf))

/-! ### Decoding and then encoding -/

/-- Where the instructions the decoder answers come from. -/
theorem decode_eq_instr_cases (t : OpcodeTable) (ir a b : Byte) (i : Instr) (h : decode t ir a b = .instr i) :
    (∃ m, t.byteOf m = ir ∧ i = m.instr a b) ∨ (argCount ir = 3 ∧ i = .reservedAa3 ir) := by
  rw [decode_eq] at h
  cases hid : t.identify ir with
  | some m =>
    rw [hid] at h
    exact Or.inl ⟨m, t.byteOf_of_identify ir m hid, (Decoded.instr.inj h).symm⟩
  | none =>
    rw [hid] at h
    by_cases haa : argCount ir = 3
    · exact Or.inr ⟨haa, (Decoded.instr.inj ((if_pos haa).symm.trans h)).symm⟩
    · exact nomatch (if_neg haa).symm.trans h

/-- Settles O2: a mnemonic's instruction is encoded with the byte that identified it and as many operand bytes as AA
says, and the reserved class keeps its byte. -/
theorem encodeOfDecodedGivesBytes : Obligations.EncodeOfDecodedGivesBytes := by
  intro t ir opa opb i ht hdec
  rcases decode_eq_instr_cases t ir opa opb i hdec with ⟨m, rfl, rfl⟩ | ⟨haa, rfl⟩
  · refine ⟨m.wf_instr opa opb, fun _ => ?_, fun hnone => ?_⟩
    · rw [m.encode_instr, ← t.argCount_byteOf ht m, argCount_toNat, Nat.add_comm, List.take_succ_cons]
    · rw [m.mnemonic_instr] at hnone
      cases hnone
  · refine ⟨decide_eq_true ((argCount_eq_three_iff ir).mp haa), fun hsome => absurd rfl hsome, fun _ => ⟨rfl, ?_⟩⟩
    rw [← argCount_toNat, haa]
    rfl

/-! ### The decoder's outputs -/

/-- The ALU bit as arithmetic on the opcode byte (R71). -/
theorem isAluOp_iff (ir : Byte) : isAluOp ir = true ↔ ir.toNat / 32 % 2 = 1 := by
  rw [isAluOp, BitVec.getLsbD, Nat.testBit_eq_decide_div_mod_eq, decide_eq_true_iff]

/-- UNKNOWN is answered at the bytes of no mnemonic alone (R75). -/
theorem OpcodeTable.identify_eq_none_iff (t : OpcodeTable) (h : t.valid = true) (ir : Byte) :
    t.identify ir = none ↔ ∀ m, t.byteOf m ≠ ir := by
  refine ⟨fun hnone m hm => ?_, t.identify_eq_none ir⟩
  rw [← hm, t.identify_byteOf h m] at hnone
  cases hnone

theorem decode_of_identify (t : OpcodeTable) (ir a b : Byte) (m : Mnemonic) (h : t.identify ir = some m) :
    decode t ir a b = .instr (m.instr a b) := by
  rw [decode_eq, h]

/-- Settles O4: AA and the ALU bit are arithmetic on the byte, and the identity is that of a legal table. -/
theorem decoderReadsTheOpcodeByte : Obligations.DecoderReadsTheOpcodeByte := fun t ir ht =>
  ⟨argCount_toNat ir, isAluOp_iff ir, beq_iff_eq, t.identify_eq_some_iff ht ir, t.identify_eq_none_iff ht ir,
    fun m a b => decode_of_identify t ir a b m⟩

/-- The operand bytes matter only to a mnemonic, and there as far as AA says (R84, R195). -/
theorem decode_congr (t : OpcodeTable) (h : t.valid = true) (ir a b a' b' : Byte)
    (ha : argCount ir ≠ 0 → argCount ir ≠ 3 → a = a') (hb : argCount ir = 2 → b = b') :
    decode t ir a b = decode t ir a' b' := by
  rw [decode_eq, decode_eq]
  cases hid : t.identify ir with
  | none => rfl
  | some m =>
    have haa : m.format.argCount = argCount ir := by rw [← t.argCount_byteOf h m, t.byteOf_of_identify ir m hid]
    have h3 : argCount ir ≠ 3 := fun e => by rw [t.identify_reserved h ir e] at hid; cases hid
    exact congrArg Decoded.instr (m.instr_congr a b a' b' (fun h0 => ha (haa ▸ h0) h3) fun h2 => hb (haa ▸ h2))

/-- Settles O5: the quotient by 64 is AA, and a byte that AA leaves out is not read. -/
theorem unusedLatchedBytesDecideNothing : Obligations.UnusedLatchedBytesDecideNothing := by
  intro t ir a b a' b' ht
  rw [← argCount_toNat]
  have hAA : ∀ n : BitVec 2, (argCount ir).toNat = n.toNat → argCount ir = n := fun n => BitVec.eq_of_toNat_eq
  refine ⟨fun h => ?_, fun h => ?_, fun h => ?_⟩
  · have h0 : argCount ir = 0 := hAA 0 h
    exact decode_congr t ht ir a b a' b' (fun hne => absurd h0 hne) fun h2 => by simp [h0] at h2
  · have h3 : argCount ir = 3 := hAA 3 h
    exact decode_congr t ht ir a b a' b' (fun _ hne => absurd h3 hne) fun h2 => by simp [h3] at h2
  · have h1 : argCount ir = 1 := hAA 1 h
    exact decode_congr t ht ir a b a b' (fun _ _ => rfl) fun h2 => by simp [h1] at h2

/-- Settles O3: each word but the last two is a mnemonic's byte of T1 with its operand bytes; then a reserved byte and
a byte of no mnemonic. -/
theorem writtenWordsDecode : Obligations.WrittenWordsDecode := by
  have row : ∀ m a b, decode .t1 (OpcodeTable.t1.byteOf m) a b = .instr (m.instr a b) :=
    decode_byteOf .t1 OpcodeTable.t1_valid
  exact ⟨row .add 1 2, row .cmp 3 4, row .not 5 255, row .ldi 6 0x81, row .st 7 0, row .push 1 0, row .jlt 2 0,
    row .jgt 2 0, row .ret 2 0, row .pra 3 0, row .int 4 0, row .iret 4 0,
    decode_reserved .t1 OpcodeTable.t1_valid 0xC5 0 0 rfl,
    decode_unknown .t1 0xA1 0 0 (fun m => by cases m <;> decide) (by decide)⟩

end Sys2Proof

namespace Sys2Proof.Machine

/-- A reserved opcode byte under AA3_MODE = nop (R195). -/
theorem exec_reservedAa3_nop (opcode : Byte) (s : State) (h : s.cfg.aa3Mode = .nop) :
    exec (.reservedAa3 opcode) s = .next (s.setPc (s.pc + 4)) := by
  simp only [exec, execReservedAa3, h, State.advance_eq]

/-- A reserved opcode byte under AA3_MODE = fault (R195, R206). -/
theorem exec_reservedAa3_fault (opcode : Byte) (s : State) (h : s.cfg.aa3Mode = .fault) :
    exec (.reservedAa3 opcode) s = .next (s.faulted .reservedOpcode opcode) := by
  simp only [exec, execReservedAa3, h, State.raiseFault_eq, State.faulted_eq]

/-- Settles O9: a byte from 0xC0 up has AA = 3, which decides its reading, and AA3_MODE decides what it does. -/
theorem reservedOpcodeFollowsAa3Mode : Obligations.ReservedOpcodeFollowsAa3Mode := fun s opcode opa opb ht =>
  ⟨fun hc0 => decode_reserved _ ht opcode opa opb ((argCount_eq_three_iff opcode).mpr hc0),
    exec_reservedAa3_nop opcode s, exec_reservedAa3_fault opcode s⟩

end Sys2Proof.Machine
end

section
/-! What an instruction can do to each part of the state: `ExecEffect` read field by field, once. -/

namespace Sys2Proof.Machine

variable {s t : State} {i : Instr}

/-- No instruction writes the parameters (R15). -/
theorem ExecEffect.cfg_eq (h : ExecEffect s i t) : t.cfg = s.cfg := by
  cases h with
  | _ => simp

/-- No instruction writes IM (R32). -/
theorem ExecEffect.im_eq (h : ExecEffect s i t) : t.im = s.im := by
  cases h with
  | _ => simp

/-- FL is written by CMP and IRET (R30). -/
theorem ExecEffect.fl_cases (h : ExecEffect s i t) : t.fl = s.fl ∨ i = .iret ∨ ∃ ra rb, i = .cmp ra rb := by
  cases h with
  | cmp ra rb => exact .inr (.inr ⟨ra, rb, rfl⟩)
  | iret => exact .inr (.inl rfl)
  | _ => exact .inl (by simp)

/-- IS is written by INT, which sets one line's bit (R33, R190). -/
theorem ExecEffect.is_cases (h : ExecEffect s i t) : t.is = s.is ∨ ∃ ra a, ∃ l : Line, i = .int ra ∧
    regIndex s.cfg ra = some a ∧ (s.reg a).toNat = l.val ∧ t.is = s.is ||| lineBit l := by
  cases h with
  | int ra a l n ha hl => exact .inr ⟨ra, a, l, rfl, ha, hl, rfl⟩
  | _ => exact .inl (by simp)

/-- IIP is written by IRET, which clears it (R34, R191). -/
theorem ExecEffect.iip_cases (h : ExecEffect s i t) : t.iip = s.iip ∨ (i = .iret ∧ t.iip = false) := by
  cases h with
  | iret => exact .inr ⟨rfl, interruptReturn_iip s⟩
  | _ => exact .inl (by simp)

/-- The output is written by PRN and PRA, which append one event (R38, R180). -/
theorem ExecEffect.out_cases (h : ExecEffect s i t) : t.out = s.out ∨ ∃ ra a, regIndex s.cfg ra = some a ∧
    ((i = .prn ra ∧ t.out = s.out ++ [.dec (s.reg a)]) ∨ (i = .pra ra ∧ t.out = s.out ++ [.char (s.reg a)])) := by
  cases h with
  | prn ra a n ha => exact .inr ⟨ra, a, ha, .inl ⟨rfl, rfl⟩⟩
  | pra ra a n ha => exact .inr ⟨ra, a, ha, .inr ⟨rfl, rfl⟩⟩
  | _ => exact .inl (by simp)

/-- SP is written by the instructions that push or pop, within the range check of each (R27, R150, R151, R156). -/
theorem ExecEffect.sp_cases (h : ExecEffect s i t) : t.sp = s.sp ∨
    (((∃ ra, i = .push ra) ∨ ∃ ra, i = .call ra) ∧ s.pushFits 1 = true ∧ t.sp = s.sp - 1) ∨
    (((∃ ra, i = .pop ra) ∨ i = .ret) ∧ s.popFits 1 = true ∧ t.sp = s.sp + 1) ∨
    (i = .iret ∧ s.popFits frameSize = true ∧ t.sp = s.sp + 9) := by
  cases h with
  | push ra a v n ha hr => exact .inr (.inl ⟨.inl ⟨ra, rfl⟩, hr, by simp⟩)
  | call ra a v n ha hr => exact .inr (.inl ⟨.inr ⟨ra, rfl⟩, hr, by simp⟩)
  | pop ra a n ha hr => exact .inr (.inr (.inl ⟨.inl ⟨ra, rfl⟩, hr, by simp⟩))
  | ret hr => exact .inr (.inr (.inl ⟨.inr rfl, hr, by simp⟩))
  | iret hr => exact .inr (.inr (.inr ⟨rfl, hr, by simp⟩))
  | _ => exact .inl (by simp)

/-- Memory is written by PUSH and CALL, one below SP, and by ST, at its address register's value (R52). -/
theorem ExecEffect.mem_cases (h : ExecEffect s i t) : t.mem = s.mem ∨ ∃ ra a v, regIndex s.cfg ra = some a ∧
    (((i = .push ra ∨ i = .call ra) ∧ t.mem = s.mem.write (s.sp - 1) v) ∨
      ∃ rb, i = .st ra rb ∧ t.mem = s.mem.write (s.reg a) v) := by
  cases h with
  | push ra a v n ha hr => exact .inr ⟨ra, a, v, ha, .inl ⟨.inl rfl, by simp⟩⟩
  | call ra a v n ha hr => exact .inr ⟨ra, a, v, ha, .inl ⟨.inr rfl, by simp⟩⟩
  | st ra rb a b n ha hb => exact .inr ⟨ra, a, s.reg b, ha, .inr ⟨rb, rfl, by simp⟩⟩
  | _ => exact .inl (by simp)

/-- The fault record is written by a fault alone, and the halted bit by a fault and by HLT (R36, R37, R98). -/
theorem ExecEffect.status_cases (h : ExecEffect s i t) : (∃ c info, t = s.faulted c info) ∨
    (t.fault = s.fault ∧ (t.halted = s.halted ∨ (i = .hlt ∧ t.halted = true))) := by
  cases h with
  | fault _ c info => exact .inl ⟨c, info, rfl⟩
  | hlt => exact .inr ⟨rfl, .inr ⟨rfl, rfl⟩⟩
  | _ => exact .inr ⟨by simp, .inl (by simp)⟩

/-! ### Interrupt entry, field by field -/

/-- An entry writes IIP, IS, SP, memory, PC and the run status, whether its frame fits or not (R216, R218). -/
theorem interruptEntry_eq (n : Line) (s : State) :
    interruptEntry n s = { s with
      iip := (interruptEntry n s).iip, is := (interruptEntry n s).is, sp := (interruptEntry n s).sp
      mem := (interruptEntry n s).mem, pc := (interruptEntry n s).pc
      halted := (interruptEntry n s).halted, fault := (interruptEntry n s).fault } := by
  cases h : s.pushFits frameSize with
  | true => rw [interruptEntry_of_fits n s h]
  | false => rw [interruptEntry_of_not_fits n s h]; rfl

@[simp] theorem interruptEntry_fl (n : Line) (s : State) : (interruptEntry n s).fl = s.fl := by rw [interruptEntry_eq]
@[simp] theorem interruptEntry_im (n : Line) (s : State) : (interruptEntry n s).im = s.im := by rw [interruptEntry_eq]
@[simp] theorem interruptEntry_out (n : Line) (s : State) : (interruptEntry n s).out = s.out := by
  rw [interruptEntry_eq]
@[simp] theorem interruptEntry_cfg (n : Line) (s : State) : (interruptEntry n s).cfg = s.cfg := by
  rw [interruptEntry_eq]

end Sys2Proof.Machine
end

section
/-! The invariant: memory in canonical form, a legal table, SP in range, a fault record only in a halted machine. Each
instruction keeps it part by part, an interrupt entry keeps it whether its frame fits or not, and so does a cycle. -/

namespace Sys2Proof.Machine

/-! ### Updates that keep it -/

theorem State.Inv.haltWith {s : State} (h : s.Inv) (c : FaultCode) (o : Option Byte) (info : Byte) :
    (s.haltWith c o info).Inv :=
  ⟨h.memWf, h.tableValid, h.spInRange, fun _ => rfl⟩

theorem State.Inv.fetch {s : State} (h : s.Inv) : s.fetch.Inv :=
  ⟨h.memWf, h.tableValid, h.spInRange, h.faultHalted⟩

theorem State.Inv.setPc {s : State} (h : s.Inv) (n : Byte) : (s.setPc n).Inv :=
  ⟨h.memWf, h.tableValid, h.spInRange, h.faultHalted⟩

theorem State.Inv.raiseLine {s : State} (h : s.Inv) (n : Line) : (s.raiseLine n).Inv :=
  ⟨h.memWf, h.tableValid, h.spInRange, h.faultHalted⟩

theorem State.Inv.setMask {s : State} (h : s.Inv) (m : Byte) : (s.setMask m).Inv :=
  ⟨h.memWf, h.tableValid, h.spInRange, h.faultHalted⟩

/-! ### The range of SP (R27) -/

/-- Pushes that fit leave SP in range (R150, R156). -/
theorem State.sp_sub_le_of_pushFits {s : State} {k : Nat} (hor : s.cfg.stackOor = .fault) (hfit : s.pushFits k = true) :
    (s.sp - BitVec.ofNat 8 k).toNat ≤ 244 := by
  have hsp : k ≤ s.sp.toNat ∧ s.sp.toNat ≤ 244 := ((s.pushFits_iff k).mp hfit).resolve_left (by simp [hor])
  bv_omega

/-- Pops that fit leave SP in range (R151, R156). -/
theorem State.sp_add_le_of_popFits {s : State} {k : Nat} (hor : s.cfg.stackOor = .fault) (hfit : s.popFits k = true) :
    (s.sp + BitVec.ofNat 8 k).toNat ≤ 244 := by
  have hsp : s.sp.toNat + k ≤ 244 := ((s.popFits_iff k).mp hfit).resolve_left (by simp [hor])
  bv_omega

/-! ### Instructions and entries -/

theorem ExecEffect.memWf {s t : State} {i : Instr} (h : ExecEffect s i t) (hwf : s.mem.wf = true) :
    t.mem.wf = true := by
  rcases h.mem_cases with e | ⟨_, a, v, _, ⟨_, e⟩ | ⟨_, _, e⟩⟩
  · rw [e]; exact hwf
  · rw [e]; exact Memory.wf_write s.mem (s.sp - 1) v hwf
  · rw [e]; exact Memory.wf_write s.mem (s.reg a) v hwf

theorem ExecEffect.spInRange {s t : State} {i : Instr} (h : ExecEffect s i t) (hor : s.cfg.stackOor = .fault)
    (hsp : s.sp.toNat ≤ 244) : t.sp.toNat ≤ 244 := by
  rcases h.sp_cases with e | ⟨_, hfit, e⟩ | ⟨_, hfit, e⟩ | ⟨_, hfit, e⟩
  · rw [e]; exact hsp
  · rw [e]; exact State.sp_sub_le_of_pushFits hor hfit
  · rw [e]; exact State.sp_add_le_of_popFits hor hfit
  · rw [e]; exact State.sp_add_le_of_popFits hor hfit

theorem ExecEffect.faultHalted {s t : State} {i : Instr} (h : ExecEffect s i t)
    (hs : s.fault ≠ none → s.halted = true) (ht : t.fault ≠ none) : t.halted = true := by
  rcases h.status_cases with ⟨c, info, rfl⟩ | ⟨hfault, hhalted | ⟨_, hhalted⟩⟩
  · rfl
  · rw [hhalted]; exact hs (hfault ▸ ht)
  · exact hhalted

theorem ExecEffect.inv {s t : State} {i : Instr} (h : ExecEffect s i t) (hs : s.Inv) : t.Inv where
  memWf := h.memWf hs.memWf
  tableValid := h.cfg_eq ▸ hs.tableValid
  spInRange hor := by
    rw [h.cfg_eq] at hor
    exact h.spInRange hor (hs.spInRange hor)
  faultHalted := h.faultHalted hs.faultHalted

theorem interruptEntry_inv {s : State} (n : Line) (hs : s.Inv) : (interruptEntry n s).Inv := by
  cases hfit : s.pushFits frameSize with
  | false => rw [interruptEntry_of_not_fits n s hfit]; exact hs.haltWith _ _ _
  | true =>
    rw [interruptEntry_of_fits n s hfit]
    exact ⟨Memory.wf_pushBytes s.frame s.mem s.sp hs.memWf, hs.tableValid,
      fun hor => State.sp_sub_le_of_pushFits hor hfit, hs.faultHalted⟩

/-! ### Cycles and runs -/

/-- Settles O57: the cases of a cycle; an instruction runs at the state the fetch leaves, which has the invariant. -/
theorem stepKeepsInv : Obligations.StepKeepsInv := by
  intro s t hs hstep
  rcases step_cases s t hstep with ⟨_, rfl⟩ | ⟨n, _, _, rfl⟩ | ⟨i, _, _, _, hexec⟩ | ⟨opcode, _, _, _, rfl⟩
  · exact hs
  · exact interruptEntry_inv n hs
  · exact (exec_effect i s.fetch t hexec).inv hs.fetch
  · exact hs.fetch.setPc _

/-- A launch with a legal table and an image in canonical form has the invariant (R240 to R243). -/
theorem State.launch_inv (cfg : Config) (im0 : Byte) (mem0 : Memory) (hTable : cfg.opcodes.valid = true)
    (hMem : mem0.wf = true) : (State.launch cfg im0 mem0).Inv :=
  ⟨hMem, hTable, fun _ => Nat.le_refl 244, fun hfault => absurd rfl hfault⟩

/-- Settles O56: reset is the launch with table T1 and no listed byte. -/
theorem invHoldsAtReset : Obligations.InvHoldsAtReset :=
  State.launch_inv defaultConfig im0Default [] OpcodeTable.t1_valid Memory.wf_nil

/-- Every move of a run keeps the invariant. -/
theorem applyMove_inv (m : Move) (s t : State) (hs : s.Inv) (h : applyMove m s = .next t) : t.Inv := by
  cases m with
  | cycle => exact stepKeepsInv s t hs h
  | raise n => cases h; exact hs.raiseLine n
  | setMask m => cases h; exact hs.setMask m

theorem Reachable.inv {s : State} (h : Reachable s) : s.Inv := by
  induction h with
  | launch cfg im0 mem0 hTable hMem => exact State.launch_inv cfg im0 mem0 hTable hMem
  | move m s t _ hm ih => exact applyMove_inv m s t ih hm

/-- Settles O58: a launch has the invariant, every move keeps it, and SP's range is a part of it. -/
theorem reachableStatesKeepInv : Obligations.ReachableStatesKeepInv := fun s hs =>
  ⟨hs.inv, fun hor => ⟨Nat.zero_le s.sp.toNat, hs.inv.spInRange hor⟩⟩

end Sys2Proof.Machine
end

section
/-! What a cycle can change (10_state.md, 20_memory.md section 1, 60_exceptions.md): `step_effect` lists the cases of a
cycle with the shape of an instruction's effect, and each statement about one part of the state reads that part in the
four cases. -/

namespace Sys2Proof.Machine

/-! ### The cases of a cycle -/

/-- A cycle changes nothing in a halted machine, enters an interrupt, has an instruction's effect on the fetched state,
or only latches and moves PC. -/
theorem step_effect {s t : State} (h : step s = .next t) :
    (s.halted = true ∧ t = s) ∨
    (∃ n, s.halted = false ∧ s.takenLine = some n ∧ t = interruptEntry n s) ∨
    (∃ i, s.takenLine = none ∧ s.decoded = .instr i ∧ ExecEffect s.fetch i t) ∨
    (∃ n, s.takenLine = none ∧ t = s.fetch.setPc n) := by
  rcases step_cases s t h with hhalt | hentry | ⟨i, _, ht, hd, hexec⟩ | ⟨opcode, _, ht, _, e⟩
  · exact .inl hhalt
  · exact .inr (.inl hentry)
  · exact .inr (.inr (.inl ⟨i, ht, hd, exec_effect i s.fetch t hexec⟩))
  · exact .inr (.inr (.inr ⟨_, ht, e⟩))

/-- Settles O7: the equation of a halted machine's step. -/
theorem haltedMachineDoesNotChange : Obligations.HaltedMachineDoesNotChange := step_of_halted

/-- What is decoded runs to a next state: every instruction does, and an unknown byte is a generic increment. -/
theorem execDecoded_answers (d : Decoded) (s : State) : ∃ t, execDecoded d s = .next t := by
  cases d with
  | instr i => exact exec_answers i s
  | unknown opcode => exact ⟨_, execDecoded_unknown opcode s⟩

/-- Settles O10: the three kinds of cycle of `step`. -/
theorem everyCycleAnswers : Obligations.EveryCycleAnswers := by
  intro s
  cases hhalted : s.halted with
  | true => exact ⟨s, step_of_halted s hhalted⟩
  | false =>
    cases htaken : s.takenLine with
    | some n => exact ⟨_, step_of_taken s n hhalted htaken⟩
    | none => rw [step_of_not_taken s hhalted htaken]; exact execDecoded_answers s.decoded s.fetch

/-! ### Special registers, output and parameters -/

/-- Settles O41: an entry and a fetch leave FL, and of the instructions CMP and IRET alone write it. -/
theorem flagsChangeOnlyByCmpAndIret : Obligations.FlagsChangeOnlyByCmpAndIret := by
  intro s t hstep hne
  rcases step_effect hstep with ⟨_, rfl⟩ | ⟨n, _, _, rfl⟩ | ⟨i, _, hd, heff⟩ | ⟨n, _, rfl⟩
  · exact absurd rfl hne
  · exact absurd (interruptEntry_fl n s) hne
  · rcases heff.fl_cases with e | rfl | ⟨ra, rb, rfl⟩
    · exact absurd e hne
    · exact .inl hd
    · exact .inr ⟨ra, rb, hd⟩
  · exact absurd rfl hne

theorem step_im {s t : State} (hstep : step s = .next t) : t.im = s.im := by
  rcases step_effect hstep with ⟨_, rfl⟩ | ⟨n, _, _, rfl⟩ | ⟨i, _, _, heff⟩ | ⟨n, _, rfl⟩
  · rfl
  · exact interruptEntry_im n s
  · exact heff.im_eq
  · rfl

theorem step_cfg {s t : State} (hstep : step s = .next t) : t.cfg = s.cfg := by
  rcases step_effect hstep with ⟨_, rfl⟩ | ⟨n, _, _, rfl⟩ | ⟨i, _, _, heff⟩ | ⟨n, _, rfl⟩
  · rfl
  · exact interruptEntry_cfg n s
  · exact heff.cfg_eq
  · rfl

/-- Settles O42: a cycle leaves IM and the parameters, and of the host's moves `set_mask` alone writes IM. -/
theorem maskIsTheHostsAlone : Obligations.MaskIsTheHostsAlone := by
  refine ⟨fun s t => step_im, fun m s t hmove => ?_⟩
  cases m with
  | cycle => exact ⟨step_cfg hmove, fun hne => absurd (step_im hmove) hne⟩
  | raise n => cases hmove; exact ⟨rfl, fun hne => absurd rfl hne⟩
  | setMask m => cases hmove; exact ⟨rfl, fun _ => rfl⟩

/-- Settles O44: an entry that fits moves SP by its frame, an entry that does not leaves it, and an instruction moves it
as `ExecEffect.sp_cases` says. -/
theorem stackPointerMovesOnlyByStackOperations : Obligations.StackPointerMovesOnlyByStackOperations := by
  intro s t hstep hne
  rcases step_effect hstep with ⟨_, rfl⟩ | ⟨n, _, ht, rfl⟩ | ⟨i, _, hd, heff⟩ | ⟨n, _, rfl⟩
  · exact absurd rfl hne
  · cases hfit : s.pushFits frameSize with
    | true => exact .inl ⟨s.not_noInterrupt_of_taken n ht, by rw [interruptEntry_of_fits n s hfit]⟩
    | false => exact absurd (by rw [interruptEntry_of_not_fits n s hfit, State.haltWith_sp]) hne
  · rcases heff.sp_cases with e | ⟨⟨ra, rfl⟩ | ⟨ra, rfl⟩, _, e⟩ | ⟨⟨ra, rfl⟩ | rfl, _, e⟩ | ⟨rfl, _, e⟩
    · exact absurd e hne
    · exact .inr (.inl ⟨ra, hd, e⟩)
    · exact .inr (.inr (.inl ⟨ra, hd, e⟩))
    · exact .inr (.inr (.inr (.inl ⟨ra, hd, e⟩)))
    · exact .inr (.inr (.inr (.inr (.inl ⟨hd, e⟩))))
    · exact .inr (.inr (.inr (.inr (.inr ⟨hd, e⟩))))
  · exact absurd rfl hne

/-- Settles O45: an entry and a fetch leave the output, and of the instructions PRN and PRA alone write it. -/
theorem outputIsOnlyAppended : Obligations.OutputIsOnlyAppended := by
  intro s t hstep
  rcases step_effect hstep with ⟨_, rfl⟩ | ⟨n, _, _, rfl⟩ | ⟨i, _, hd, heff⟩ | ⟨n, _, rfl⟩
  · exact .inl rfl
  · exact .inl (interruptEntry_out n s)
  · rcases heff.out_cases with e | ⟨ra, a, ha, ⟨rfl, e⟩ | ⟨rfl, e⟩⟩
    · exact .inl e
    · exact .inr ⟨ra, a, ha, .inl ⟨hd, e⟩⟩
    · exact .inr ⟨ra, a, ha, .inr ⟨hd, e⟩⟩
  · exact .inl rfl

/-! ### Pending lines and the interrupt in progress -/

/-- A line that `raiseLine` makes pending is the line named, or was pending (R213). -/
theorem getLsbD_or_lineBit (v : Byte) (l n : Line) :
    (v ||| lineBit l).getLsbD n.val = (v.getLsbD n.val || decide (n = l)) := by
  rw [BitVec.getLsbD_or, lineBit_getLsbD]

/-- An entry makes no line pending (R216, R218). -/
theorem interruptEntry_is_getLsbD_le (n k : Line) (s : State) (h : s.is.getLsbD k.val = false) :
    (interruptEntry n s).is.getLsbD k.val = false := by
  cases hfit : s.pushFits frameSize with
  | true =>
    rw [interruptEntry_is_of_fits n s hfit, State.acknowledge_is, BitVec.getLsbD_and, h]
    exact Bool.false_and _
  | false => rw [interruptEntry_is_of_not_fits n s hfit, h]

/-- A bit that stays as it was neither rises nor falls. -/
theorem neither_rises_nor_falls (b : Bool) {P Q : Prop} : (b = false → b = true → P) ∧ (b = true → b = false → Q) := by
  cases b <;> simp

/-- Settles O43: an entry sets no bit and clears at most its own line's, and of the instructions INT alone writes IS, by
setting the bit of its number. -/
theorem pendingBitsChangeOnlyByIntAndEntry : Obligations.PendingBitsChangeOnlyByIntAndEntry := by
  intro s t n hstep
  rcases step_effect hstep with ⟨_, rfl⟩ | ⟨k, hrun, ht, rfl⟩ | ⟨i, _, hd, heff⟩ | ⟨_, _, rfl⟩
  · exact neither_rises_nor_falls _
  · refine ⟨fun h0 h1 => absurd ((interruptEntry_is_getLsbD_le k n s h0).symm.trans h1) (by decide), fun h1 h0 => ?_⟩
    have hk : n = k := by
      refine Classical.byContradiction fun hne => ?_
      rw [interruptEntry_is_getLsbD_ne k n s hne, h1] at h0
      cases h0
    subst hk
    obtain ⟨hiip, hset, hlowest⟩ := (s.takenLine_eq_some_iff n).mp ht
    exact ⟨hrun, hiip, hset, hlowest, hstep⟩
  · rcases heff.is_cases with e | ⟨ra, a, l, rfl, ha, hl, e⟩
    · rw [e]
      exact neither_rises_nor_falls _
    · rw [e, State.fetch_is, getLsbD_or_lineBit]
      refine ⟨fun h0 h1 => ?_, fun h1 h0 => ?_⟩
      · rw [h0, Bool.false_or, decide_eq_true_iff] at h1
        exact ⟨ra, a, hd, ha, h1 ▸ hl⟩
      · rw [h1, Bool.true_or] at h0
        cases h0
  · exact neither_rises_nor_falls _

/-- An instruction leaves every pending line pending (R219). -/
theorem ExecEffect.is_kept {s t : State} {i : Instr} (h : ExecEffect s i t) : s.is &&& t.is = s.is := by
  rcases h.is_cases with e | ⟨_, _, l, _, _, _, e⟩
  · rw [e, BitVec.and_self]
  · rw [e]
    refine BitVec.eq_of_getLsbD_eq fun k _ => ?_
    rw [BitVec.getLsbD_and, BitVec.getLsbD_or]
    exact Bool.and_eq_left_iff_imp.mpr fun hpending => by rw [hpending, Bool.true_or]

/-- Settles O37: with IIP = 1 the check takes no line; an instruction keeps what is pending, and IRET alone writes
IIP. -/
theorem interruptsNeverNest : Obligations.InterruptsNeverNest := by
  intro s t hrun hiip hstep
  refine ⟨step_of_noInterrupt s hrun (.inl hiip), ?_⟩
  rcases step_effect hstep with ⟨hhalted, _⟩ | ⟨n, _, ht, _⟩ | ⟨i, _, hd, heff⟩ | ⟨_, _, rfl⟩
  · rw [hrun] at hhalted; cases hhalted
  · exact absurd (.inl hiip) (s.not_noInterrupt_of_taken n ht)
  · refine ⟨heff.is_kept, fun hend => ?_⟩
    rcases heff.iip_cases with e | ⟨rfl, _⟩
    · exact absurd (hend.symm.trans (e.trans hiip)) (by decide)
    · exact hd
  · exact ⟨BitVec.and_self, fun hend => absurd (hend.symm.trans hiip) (by decide)⟩

/-! ### The run status -/

/-- Settles O38: an instruction's fault is its `State.faulted`, a cycle's is that of the fetched state or an entry's. -/
theorem faultsArePrecise : Obligations.FaultsArePrecise := by
  refine ⟨fun i s t hexec => ?_, fun s t hstep => ?_⟩
  · rcases (exec_effect i s t hexec).status_cases with hfault | ⟨e, _⟩
    · exact .inr hfault
    · exact .inl e
  · rcases step_effect hstep with ⟨_, rfl⟩ | ⟨n, _, _, rfl⟩ | ⟨i, _, _, heff⟩ | ⟨n, _, rfl⟩
    · exact .inl rfl
    · cases hfit : s.pushFits frameSize with
      | true => exact .inl (by rw [interruptEntry_of_fits n s hfit])
      | false => exact .inr (.inl ⟨s.sp, interruptEntry_of_not_fits n s hfit⟩)
    · rcases heff.status_cases with hfault | ⟨e, _⟩
      · exact .inr (.inr hfault)
      · exact .inl e
    · exact .inl rfl

/-- Settles O46: a halted machine does not change, and by the invariant a machine with a record is halted. -/
theorem haltAndFaultAreFinal : Obligations.HaltAndFaultAreFinal := by
  intro s t hstep
  have hsame : s.halted = true → t = s := fun hhalted =>
    (Host.Outcome.next.inj ((step_of_halted s hhalted).symm.trans hstep)).symm
  refine ⟨fun hhalted => by rw [hsame hhalted]; exact hhalted, fun hinv hfault => ?_⟩
  have hhalted : s.halted = true := hinv.faultHalted hfault
  rw [hsame hhalted]
  exact ⟨rfl, hhalted⟩

/-! ### Memory (R52) -/

/-- A byte that reads differently after one write is the byte written. -/
theorem State.eq_of_readMem_ne_of_write {s t : State} {a v x : Byte} (hmem : t.mem = s.mem.write a v)
    (hne : t.readMem x ≠ s.readMem x) : x = a := by
  refine Classical.byContradiction fun hx => ?_
  exact hne (by rw [State.readMem, hmem, Memory.read_write_ne s.mem a x v hx, State.readMem])

/-- Memories that are the same read the same. -/
theorem State.readMem_eq_of_mem {s t : State} (hmem : t.mem = s.mem) (x : Byte) : t.readMem x = s.readMem x := by
  rw [State.readMem, hmem, State.readMem]

/-- An entry that fits writes the nine bytes below SP alone (R216). -/
theorem interruptEntry_readMem_other (n : Line) (s : State) (h : s.pushFits frameSize = true) (x : Byte)
    (hx : ∀ k : Fin 9, x ≠ s.sp - 1 - BitVec.ofNat 8 k.val) : (interruptEntry n s).readMem x = s.readMem x := by
  rw [interruptEntry_of_fits n s h]
  exact Memory.read_pushBytes_other s.frame s.mem s.sp x fun i hi => hx ⟨i, hi⟩

/-- Settles O47: an entry writes the nine bytes of its frame or none, and an instruction as `ExecEffect.mem_cases`
says. -/
theorem memoryChangesOnlyWhereTheTableSays : Obligations.MemoryChangesOnlyWhereTheTableSays := by
  intro s t x hstep hne
  rcases step_effect hstep with ⟨_, rfl⟩ | ⟨n, _, ht, rfl⟩ | ⟨i, ht, hd, heff⟩ | ⟨n, _, rfl⟩
  · exact absurd rfl hne
  · refine .inl ⟨s.not_noInterrupt_of_taken n ht, ?_⟩
    refine Classical.byContradiction fun hx => ?_
    cases hfit : s.pushFits frameSize with
    | true => exact hne (interruptEntry_readMem_other n s hfit x fun k e => hx ⟨k, e⟩)
    | false => exact hne (by rw [interruptEntry_of_not_fits n s hfit, State.haltWith_readMem])
  · refine .inr ⟨s.noInterrupt_iff.mpr ht, ?_⟩
    rcases heff.mem_cases with e | ⟨ra, a, v, ha, ⟨rfl | rfl, e⟩ | ⟨rb, rfl, e⟩⟩
    · exact absurd (State.readMem_eq_of_mem e x) hne
    · exact ⟨ra, a, ha, .inl ⟨hd, State.eq_of_readMem_ne_of_write e hne⟩⟩
    · exact ⟨ra, a, ha, .inr (.inl ⟨hd, State.eq_of_readMem_ne_of_write e hne⟩)⟩
    · exact ⟨ra, a, ha, .inr (.inr ⟨rb, hd, State.eq_of_readMem_ne_of_write e hne⟩)⟩
  · exact absurd rfl hne

/-! ### The latches (R35) -/

/-- `s` with other bytes in the latches IR, OPA and OPB. -/
def State.withLatches (s : State) (ir opa opb : Byte) : State := { s with ir := ir, opa := opa, opb := opb }

/-- A fetch overwrites the latches. -/
theorem State.fetch_withLatches (s : State) (ir opa opb : Byte) : (s.withLatches ir opa opb).fetch = s.fetch := rfl

/-- An instruction cycle overwrites the latches before anything reads them (R92). -/
theorem step_withLatches (s : State) (ir opa opb : Byte) (hrun : s.halted = false) (ht : s.takenLine = none) :
    step (s.withLatches ir opa opb) = step s := by
  rw [step_of_not_taken s hrun ht, step_of_not_taken (s.withLatches ir opa opb) hrun ht, State.fetch_withLatches]
  rfl

/-- An entry carries the latches through. -/
theorem interruptEntry_withLatches (n : Line) (s : State) (ir opa opb : Byte) :
    interruptEntry n (s.withLatches ir opa opb) = (interruptEntry n s).withLatches ir opa opb := by
  have hsame : (s.withLatches ir opa opb).pushFits frameSize = s.pushFits frameSize := rfl
  cases h : s.pushFits frameSize with
  | true => rw [interruptEntry_of_fits n s h, interruptEntry_of_fits n _ (hsame.trans h)]; rfl
  | false => rw [interruptEntry_of_not_fits n s h, interruptEntry_of_not_fits n _ (hsame.trans h)]; rfl

/-- Settles O48: a halted machine and an entry carry the latches through, and an instruction cycle is the same cycle. -/
theorem latchesAreLoadedBeforeTheyAreRead : Obligations.LatchesAreLoadedBeforeTheyAreRead := by
  intro s t ir opa opb hstep
  rcases step_cases s t hstep with ⟨hhalted, rfl⟩ | ⟨n, hrun, ht, rfl⟩ | ⟨_, hrun, ht, _⟩ | ⟨_, hrun, ht, _⟩
  · exact ⟨_, step_of_halted (t.withLatches ir opa opb) hhalted, rfl⟩
  · refine ⟨_, step_of_taken (s.withLatches ir opa opb) n hrun ht, ?_⟩
    rw [interruptEntry_withLatches]
    rfl
  all_goals exact ⟨t, (step_withLatches s ir opa opb hrun ht).trans hstep, rfl⟩

end Sys2Proof.Machine
end

section
/-! DIV, MOD and CMP (41_alu.md): division of bytes is division of the numbers they stand for, a zero divisor is the one
condition after the operands are good, and the three flags of a comparison exclude each other. -/

namespace Sys2Proof.Machine

/-- The unsigned quotient (R115). -/
theorem Byte.ofNat_toNat_div (x y : Byte) : BitVec.ofNat 8 (x.toNat / y.toNat) = x / y := by
  rw [← BitVec.toNat_udiv, BitVec.ofNat_toNat, BitVec.setWidth_eq]

/-- The unsigned remainder (R116). -/
theorem Byte.ofNat_toNat_mod (x y : Byte) : BitVec.ofNat 8 (x.toNat % y.toNat) = x % y := by
  rw [← BitVec.toNat_umod, BitVec.ofNat_toNat, BitVec.setWidth_eq]

/-- An instruction that is `aluDivide f` checks its operands, then the divisor, and writes its result and PC alone. -/
theorem twoRegRule_of_aluDivide (i : Byte → Byte → Instr) (s : State) (f : Byte → Byte → Byte)
    (h : ∀ ra rb, exec (i ra rb) s = aluDivide f ra rb s) :
    TwoRegRule i s fun rb a b =>
      if s.reg b = 0 then s.faulted .divideByZero rb
      else { s with regs := s.regs.set a (f (s.reg a) (s.reg b)), pc := s.pc + 3 } :=
  twoRegRule_of_withRegs i s _ h

/-- Settles O12: both instructions follow the rule of `aluDivide`, whose condition is that the divisor's number is 0. -/
theorem divModUnsignedOrFault : Obligations.DivModUnsignedOrFault := by
  intro s ra rb
  obtain ⟨divBadA, divBadB, div⟩ := twoRegRule_of_aluDivide .div s (· / ·) (fun _ _ => rfl) ra rb
  obtain ⟨modBadA, modBadB, mod⟩ := twoRegRule_of_aluDivide .mod s (· % ·) (fun _ _ => rfl) ra rb
  refine ⟨fun ha => ⟨divBadA ha, modBadA ha⟩, fun a ha hb => ⟨divBadB a ha hb, modBadB a ha hb⟩,
    fun a b ha hb hzero => ?_, fun a b ha hb hne => ?_, rfl, rfl⟩
  · have hb0 : s.reg b = 0 := BitVec.eq_of_toNat_eq hzero
    exact ⟨(div a b ha hb).trans (congrArg _ (if_pos hb0)), (mod a b ha hb).trans (congrArg _ (if_pos hb0))⟩
  · have hb0 : s.reg b ≠ 0 := fun e => hne (congrArg BitVec.toNat e)
    rw [Byte.ofNat_toNat_div, Byte.ofNat_toNat_mod]
    exact ⟨(div a b ha hb).trans (congrArg _ (if_neg hb0)), (mod a b ha hb).trans (congrArg _ (if_neg hb0))⟩

/-- Of the three conditions of a comparison one holds, and its flag is the byte that CMP writes (R119). -/
theorem compareFlags_eq (x y : Byte) : compareFlags x y =
    if x.toNat < y.toNat then 0b100 else if x.toNat = y.toNat then 0b001 else 0b010 := by
  simp only [compareFlags, BitVec.lt_def, ← BitVec.toNat_inj]
  rcases Nat.lt_trichotomy x.toNat y.toNat with hlt | heq | hgt
  · simp [hlt, Nat.lt_asymm hlt, Nat.ne_of_lt hlt]
  · simp [heq]
  · simp [hgt, Nat.lt_asymm hgt, Nat.ne_of_gt hgt]

/-- Settles O15: CMP is the two-register form around a write of FL, with the byte in the form of `compareFlags_eq`. -/
theorem cmpSetsExactlyOneFlag : Obligations.CmpSetsExactlyOneFlag := by
  intro s
  simp only [← compareFlags_eq]
  exact ⟨twoRegRule_of_withRegs .cmp s _ fun _ _ => rfl, fun _ _ => rfl⟩

end Sys2Proof.Machine
end

section
/-! Memory as the instructions meet it (20_memory.md R59, R62): what ST stores is what LD loads and what a fetch
latches. -/

namespace Sys2Proof.Machine

/-- ST with good operands. -/
theorem exec_st (s : State) (ra rb : Byte) (a b : RegIdx) (ha : regIndex s.cfg ra = some a)
    (hb : regIndex s.cfg rb = some b) :
    exec (.st ra rb) s = .next ((s.writeMem (s.reg a) (s.reg b)).setPc (s.pc + 3)) :=
  withRegs_some ra rb s _ a b ha hb

/-- LD with good operands. -/
theorem exec_ld (s : State) (ra rb : Byte) (a b : RegIdx) (ha : regIndex s.cfg ra = some a)
    (hb : regIndex s.cfg rb = some b) :
    exec (.ld ra rb) s = .next ((s.setReg a (s.readMem (s.reg b))).setPc (s.pc + 3)) :=
  withRegs_some ra rb s _ a b ha hb

theorem State.readMem_writeMem_same (s : State) (a v : Byte) (h : s.mem.wf = true) :
    (s.writeMem a v).readMem a = v :=
  Memory.read_write_same s.mem a v h

/-- Settles O18: the store changes no register, so LD reads the address that ST wrote. -/
theorem storeThenLoadReturnsByte : Obligations.StoreThenLoadReturnsByte := by
  intro s ra rb rc a b c hwf ha hb hc
  refine ⟨_, (execAll_cons _ _ s _ (exec_st s ra rb a b ha hb)).trans
    (execAll_cons _ _ _ _ (exec_ld _ rc ra c a hc ha)), ?_⟩
  rw [State.setPc_reg, State.setReg_reg_same]
  exact s.readMem_writeMem_same (s.reg a) (s.reg b) hwf

/-- Settles O19: after the store the machine runs and takes no interrupt, and the byte at its PC is the byte stored. -/
theorem storedByteIsFetchedNext : Obligations.StoredByteIsFetchedNext := by
  intro s t ra rb a b hwf hrun hno ha hb haddr hexec
  have ht : t = (s.writeMem (s.reg a) (s.reg b)).setPc (s.pc + 3) :=
    Host.Outcome.next.inj (hexec.symm.trans (exec_st s ra rb a b ha hb))
  have hop : t.readMem t.pc = s.reg b := by
    rw [ht, State.setPc_pc, ← haddr]
    exact s.readMem_writeMem_same (s.reg a) (s.reg b) hwf
  have hcycle : step t = execDecoded t.decoded t.fetch :=
    step_of_noInterrupt t (by rw [ht]; exact hrun) (by rw [ht]; exact hno)
  rw [hcycle, State.decoded, State.fetch, hop]

end Sys2Proof.Machine
end

section
/-! The jumps on E = 0, G and L (44_control_transfer.md R163 to R165): the flags as arithmetic on FL. -/

namespace Sys2Proof.Machine

/-- JNE's condition. -/
theorem State.not_flagE_iff (s : State) : (!s.flagE) = true ↔ s.fl.toNat % 2 = 0 := by
  rw [Bool.not_eq_true', ← Bool.not_eq_true, s.flagE_iff, Nat.mod_two_not_eq_one]

theorem State.flagG_iff (s : State) : s.flagG = true ↔ s.fl.toNat / 2 % 2 = 1 := by
  rw [State.flagG, BitVec.getLsbD, Nat.testBit_eq_decide_div_mod_eq, decide_eq_true_iff]

theorem State.flagL_iff (s : State) : s.flagL = true ↔ s.fl.toNat / 4 % 2 = 1 := by
  rw [State.flagL, BitVec.getLsbD, Nat.testBit_eq_decide_div_mod_eq, decide_eq_true_iff]

/-- Settles O26: the rule of `jumpIf` at the three conditions. -/
theorem jneJgtJltSetOnlyPc : Obligations.JneJgtJltSetOnlyPc := fun s =>
  ⟨oneRegRule_of_jumpIf .jne s (!s.flagE) _ s.not_flagE_iff fun _ => rfl,
    oneRegRule_of_jumpIf .jgt s s.flagG _ s.flagG_iff fun _ => rfl,
    oneRegRule_of_jumpIf .jlt s s.flagL _ s.flagL_iff fun _ => rfl, fun _ => ⟨rfl, rfl, rfl⟩⟩

end Sys2Proof.Machine
end

section
/-! INT, NOP, HLT (46_system.md R190, R192, R193) and the host's two actions (60_exceptions.md R213, R228). -/

namespace Sys2Proof.Machine

/-- A line's bit as the power of two that the statements write. -/
theorem lineBit_eq_ofNat (n : Line) : lineBit n = BitVec.ofNat 8 (2 ^ n.val) := by
  revert n
  decide

/-- INT of a register that holds a line's number (R190). -/
theorem exec_int_line (s : State) (ra : Byte) (a : RegIdx) (ha : regIndex s.cfg ra = some a)
    (hl : (s.reg a).toNat < 8) :
    exec (.int ra) s = .next ((s.raiseLine ⟨(s.reg a).toNat, hl⟩).setPc (s.pc + 2)) :=
  (withReg_some ra s _ a ha).trans (by rw [dif_pos hl]; rfl)

/-- INT of a register that holds a larger number (R205). -/
theorem exec_int_bad (s : State) (ra : Byte) (a : RegIdx) (ha : regIndex s.cfg ra = some a)
    (hl : 8 ≤ (s.reg a).toNat) : exec (.int ra) s = .next (s.faulted .badInterrupt (s.reg a)) :=
  (withReg_some ra s _ a ha).trans (by rw [dif_neg (Nat.not_lt_of_le hl)]; rfl)

/-- Settles O30: the operand, then the number, and the bit of the line it names. -/
theorem intRaisesOneLine : Obligations.IntRaisesOneLine := by
  intro s ra
  refine ⟨withReg_none ra s _, exec_int_bad s ra, fun a ha hl => ?_, rfl⟩
  rw [exec_int_line s ra a ha hl, State.raiseLine, lineBit_eq_ofNat]
  rfl

/-- Settles O32: NOP and HLT are updates of the state, and a step leaves the halted state as it is, whatever IM and IS
hold. -/
theorem nopAdvancesAndHltHalts : Obligations.NopAdvancesAndHltHalts := by
  intro s
  refine ⟨rfl, rfl, fun t hexec im is => step_of_halted _ ?_, rfl, rfl⟩
  cases hexec
  rfl

/-- Raising a line again changes nothing: requests are not counted (R213). -/
theorem State.raiseLine_raiseLine (s : State) (n : Line) : (s.raiseLine n).raiseLine n = s.raiseLine n := by
  simp only [State.raiseLine, BitVec.or_assoc, BitVec.or_self]

/-- Settles O55: `set_mask` and `raise` are updates of IM and IS, and `raise` sets its line's bit. -/
theorem hostActionsTouchOneRegister : Obligations.HostActionsTouchOneRegister := fun s n _ =>
  ⟨rfl, s.raiseLine n, rfl, rfl, fun k => getLsbD_or_lineBit s.is n k,
    congrArg Host.Outcome.next (s.raiseLine_raiseLine n)⟩

end Sys2Proof.Machine
end

section
/-! The stack instructions (43_stack.md) and CALL and RET (44_control_transfer.md): an instruction that checks its
operand and then a range, the stack's range before and after one push or pop, and the laws of R155. -/

namespace Sys2Proof.Machine

/-! ### A register operand, then a range -/

/-- Instruction `i` with operand byte `ra` in state `s` checks its operand, then `P`, which raises `code` when it fails,
and then answers `effect` of the register named (R208). -/
structure GuardedRule (i : Instr) (s : State) (ra : Byte) (P : Prop) (code : FaultCode) (info : Byte)
    (effect : RegIdx → State) : Prop where
  badOperand : regIndex s.cfg ra = none → exec i s = .next (s.faulted .badRegister ra)
  notMet     : ∀ a, regIndex s.cfg ra = some a → ¬ P → exec i s = .next (s.faulted code info)
  met        : ∀ a, regIndex s.cfg ra = some a → P → exec i s = .next (effect a)

/-- An instruction that is `withReg` around a checked condition follows the guarded rule. -/
theorem guardedRule_of_withReg {i : Instr} {s : State} {ra : Byte} {ok : Bool} {P : Prop} {code : FaultCode}
    {info : Byte} {effect : RegIdx → State} (hok : ok = true ↔ P)
    (h : exec i s = withReg ra s fun a => if ok = true then effect a else s.raiseFault code info) :
    GuardedRule i s ra P code info effect where
  badOperand hn := h.trans (withReg_none ra s _ hn)
  notMet a ha hP := (h.trans (withReg_some ra s _ a ha)).trans (congrArg _ (if_neg (mt hok.mp hP)))
  met a ha hP := (h.trans (withReg_some ra s _ a ha)).trans (congrArg _ (if_pos (hok.mpr hP)))

/-- What a PUSH of the byte `v` leaves (R152, R153). -/
def State.afterPush (s : State) (v : Byte) : State := ((s.push v).mirror v).advance 2

/-- What a POP into `R[r]` leaves (R154). -/
def State.afterPop (s : State) (r : RegIdx) : State := (s.dropTop.setReg r s.top).setPc (s.pc + 2)

/-- What a CALL of the address in `R[a]` leaves (R166). -/
def State.afterCall (s : State) (a : RegIdx) : State := (s.push (s.pc + 2)).setPc (s.reg a)

theorem exec_push (s : State) (ra : Byte) :
    GuardedRule (.push ra) s ra (s.HasRoom 1) .stackOverflow s.sp fun a => s.afterPush (s.pushedByte ra a) :=
  guardedRule_of_withReg (s.pushFits_iff_hasRoom 1) rfl

theorem exec_pop (s : State) (ra : Byte) : GuardedRule (.pop ra) s ra (s.Holds 1) .stackUnderflow s.sp s.afterPop :=
  guardedRule_of_withReg (s.popFits_iff_holds 1) rfl

theorem exec_call (s : State) (ra : Byte) :
    GuardedRule (.call ra) s ra (s.HasRoom 1) .stackOverflow s.sp s.afterCall :=
  guardedRule_of_withReg (s.pushFits_iff_hasRoom 1) rfl

theorem exec_ret_of_holds (s : State) (h : s.Holds 1) : exec .ret s = .next s.popPc :=
  congrArg _ (if_pos ((s.popFits_iff_holds 1).mpr h))

theorem exec_ret_of_not_holds (s : State) (h : ¬ s.Holds 1) :
    exec .ret s = .next (s.faulted .stackUnderflow s.sp) :=
  congrArg _ (if_neg (mt (s.popFits_iff_holds 1).mp h))

/-! ### The byte pushed -/

theorem State.pushedByte_eq (s : State) (ra : Byte) (a : RegIdx) (v : Byte)
    (hval : s.cfg.pushData = .value → v = s.reg a) (hidx : s.cfg.pushData = .index → v = ra) :
    s.pushedByte ra a = v := by
  unfold State.pushedByte
  split
  · next e => exact (hval e).symm
  · next e => exact (hidx e).symm

theorem State.pushedByte_of_value (s : State) (ra : Byte) (a : RegIdx) (h : s.cfg.pushData = .value) :
    s.pushedByte ra a = s.reg a := by
  simp only [State.pushedByte, h]

/-! ### The statements about one instruction -/

/-- Settles O20: the rule of PUSH, the mirror's write spelled out. -/
theorem pushStoresAndMirrors : Obligations.PushStoresAndMirrors := by
  intro s ra
  obtain ⟨hbad, hfull, hpush⟩ := exec_push s ra
  refine ⟨hbad, hfull, fun a v ha hroom hval hidx => ?_, rfl⟩
  rw [hpush a ha hroom, s.pushedByte_eq ra a v hval hidx, State.afterPush, State.mirror_eq]
  rfl

/-- Settles O21: the rule of POP. -/
theorem popLoadsFromTheStack : Obligations.PopLoadsFromTheStack := by
  intro s ra
  obtain ⟨hbad, hempty, hpop⟩ := exec_pop s ra
  exact ⟨hbad, hempty, hpop, rfl⟩

/-- Settles O27: the rules of CALL and RET. -/
theorem callAndRetUseTheStack : Obligations.CallAndRetUseTheStack := fun s =>
  ⟨fun ra => (exec_call s ra).badOperand, fun ra => (exec_call s ra).notMet, fun ra => (exec_call s ra).met,
    exec_ret_of_not_holds s, exec_ret_of_holds s, fun _ => rfl, rfl⟩

/-! ### What PUSH and POP leave -/

@[simp] theorem State.afterPush_sp (s : State) (v : Byte) : (s.afterPush v).sp = s.sp - 1 := by simp [State.afterPush]
@[simp] theorem State.afterPush_cfg (s : State) (v : Byte) : (s.afterPush v).cfg = s.cfg := by simp [State.afterPush]
@[simp] theorem State.afterPush_fault (s : State) (v : Byte) : (s.afterPush v).fault = s.fault := by
  simp [State.afterPush]
@[simp] theorem State.afterPush_halted (s : State) (v : Byte) : (s.afterPush v).halted = s.halted := by
  simp [State.afterPush]
@[simp] theorem State.afterPush_mem (s : State) (v : Byte) : (s.afterPush v).mem = s.mem.write (s.sp - 1) v := by
  simp [State.afterPush]

/-- PUSH writes R7 alone, and that with the mirror (R153). -/
theorem State.afterPush_reg (s : State) (v : Byte) (r : RegIdx) :
    (s.afterPush v).reg r = if s.cfg.pushMirrorsR7 = true ∧ r = 7 then v else s.reg r := by
  rw [State.afterPush, State.advance_eq, State.setPc_reg, State.mirror_reg, State.push_cfg, State.push_reg]

/-- The byte pushed is the one at the new SP. -/
theorem State.afterPush_readMem_top (s : State) (v : Byte) (hwf : s.mem.wf = true) :
    (s.afterPush v).readMem (s.sp - 1) = v := by
  rw [State.readMem, State.afterPush_mem, Memory.read_write_same s.mem (s.sp - 1) v hwf]

/-- A push leaves the other bytes of memory (R152). -/
theorem State.afterPush_readMem_ne (s : State) (v x : Byte) (hx : x ≠ s.sp - 1) :
    (s.afterPush v).readMem x = s.readMem x := by
  rw [State.readMem, State.afterPush_mem, Memory.read_write_ne s.mem (s.sp - 1) x v hx, State.readMem]

@[simp] theorem State.afterPop_sp (s : State) (r : RegIdx) : (s.afterPop r).sp = s.sp + 1 := rfl
@[simp] theorem State.afterPop_readMem (s : State) (r : RegIdx) (x : Byte) : (s.afterPop r).readMem x = s.readMem x :=
  rfl

/-- POP writes its register alone (R154). -/
theorem State.afterPop_reg (s : State) (r q : RegIdx) :
    (s.afterPop r).reg q = if q = r then s.readMem s.sp else s.reg q := by
  rw [State.afterPop, State.setPc_reg, State.setReg_reg]
  rfl

/-! ### The range of the stack from instruction to instruction -/

/-- After `k` of the pushes that fit, the pops of their bytes fit (R150, R151, R156). -/
theorem State.holds_of_hasRoom {s t : State} (k : Nat) (hcfg : t.cfg = s.cfg) (hsp : t.sp = s.sp - BitVec.ofNat 8 k)
    (h : s.HasRoom k) : t.Holds k := by
  rcases h with hwrap | hrange
  · exact .inl (hcfg ▸ hwrap)
  · refine .inr ?_
    rw [hsp]
    bv_omega

/-- Room for `k + 1` pushes leaves room for `k` after one (R156). -/
theorem State.hasRoom_pred {s t : State} (k : Nat) (hcfg : t.cfg = s.cfg) (hsp : t.sp = s.sp - 1)
    (h : s.HasRoom (k + 1)) : t.HasRoom k := by
  rcases h with hwrap | hrange
  · exact .inl (hcfg ▸ hwrap)
  · refine .inr ?_
    rw [hsp]
    bv_omega

/-- `k + 1` bytes on the stack leave `k` after one pop (R156). -/
theorem State.holds_pred {s t : State} (k : Nat) (hcfg : t.cfg = s.cfg) (hsp : t.sp = s.sp + 1)
    (h : s.Holds (k + 1)) : t.Holds k := by
  rcases h with hwrap | hrange
  · exact .inl (hcfg ▸ hwrap)
  · refine .inr ?_
    rw [hsp]
    bv_omega

theorem State.hasRoom_mono {s : State} {j k : Nat} (hjk : j ≤ k) (h : s.HasRoom k) : s.HasRoom j :=
  h.imp_right fun ⟨hlo, hhi⟩ => ⟨Nat.le_trans hjk hlo, hhi⟩

theorem State.holds_mono {s : State} {j k : Nat} (hjk : j ≤ k) (h : s.Holds k) : s.Holds j :=
  h.imp_right fun hhi => by omega

/-! ### PUSH and POP in a list -/

theorem execAll_push {s : State} {ra : Byte} {a : RegIdx} (rest : List Instr) (hroom : s.HasRoom 1)
    (ha : regIndex s.cfg ra = some a) :
    execAll (.push ra :: rest) s = execAll rest (s.afterPush (s.pushedByte ra a)) :=
  execAll_cons _ rest s _ ((exec_push s ra).met a ha hroom)

theorem execAll_pop {s : State} {ra : Byte} {a : RegIdx} (rest : List Instr) (hholds : s.Holds 1)
    (ha : regIndex s.cfg ra = some a) : execAll (.pop ra :: rest) s = execAll rest (s.afterPop a) :=
  execAll_cons _ rest s _ ((exec_pop s ra).met a ha hholds)

/-! ### The laws of R155 -/

/-- Settles O22: the push moves SP to its byte, and the pop reads there and moves SP back. -/
theorem pushThenPopCopies : Obligations.PushThenPopCopies := by
  intro s rx ry x y hwf hval hroom hx hy
  have hholds : (s.afterPush (s.reg x)).Holds 1 :=
    State.holds_of_hasRoom 1 (s.afterPush_cfg _) (s.afterPush_sp _) hroom
  have htop : (s.afterPush (s.reg x)).readMem (s.sp - 1) = s.reg x := s.afterPush_readMem_top (s.reg x) hwf
  refine ⟨(s.afterPush (s.reg x)).afterPop y, ?_, ?_, ?_, fun hmirror => ?_⟩
  · rw [execAll_push _ hroom hx, s.pushedByte_of_value rx x hval, execAll_pop _ hholds (by simpa using hy), execAll]
  · rw [State.afterPop_reg, if_pos rfl, State.afterPush_sp, htop]
  · rw [State.afterPop_sp, State.afterPush_sp, BitVec.sub_add_cancel]
  · rw [State.afterPop_reg, State.afterPush_sp, htop, State.afterPush_reg, if_pos (And.intro hmirror rfl), ite_self]

/-- Settles O23: the second push's byte lies one below the first's, which it leaves, so the pops read them in turn. -/
theorem stackIsLastInFirstOut : Obligations.StackIsLastInFirstOut := by
  intro s rx ry ru rv x y u v hwf hval hroom hx hy hu hv huv
  obtain ⟨s₁, hs₁⟩ : ∃ s₁, s₁ = s.afterPush (s.reg x) := ⟨_, rfl⟩
  obtain ⟨s₂, hs₂⟩ : ∃ s₂, s₂ = s₁.afterPush (s₁.reg y) := ⟨_, rfl⟩
  have hcfg₁ : s₁.cfg = s.cfg := by rw [hs₁, State.afterPush_cfg]
  have hcfg₂ : s₂.cfg = s.cfg := by rw [hs₂, State.afterPush_cfg, hcfg₁]
  have hsp₁ : s₁.sp = s.sp - 1 := by rw [hs₁, State.afterPush_sp]
  have hsp₂ : s₂.sp = s₁.sp - 1 := by rw [hs₂, State.afterPush_sp]
  have hwf₁ : s₁.mem.wf = true := by rw [hs₁, State.afterPush_mem]; exact Memory.wf_write s.mem _ _ hwf
  have hroom₁ : s₁.HasRoom 1 := State.hasRoom_pred 1 hcfg₁ hsp₁ hroom
  have hholds₂ : s₂.Holds 2 := State.holds_of_hasRoom 2 hcfg₂ (by rw [hsp₂, hsp₁, BitVec.sub_sub]; rfl) hroom
  have hholds₃ : (s₂.afterPop u).Holds 1 := State.holds_pred (s := s₂) 1 rfl rfl hholds₂
  have htop : s₂.readMem s₂.sp = s₁.reg y := by rw [hsp₂, hs₂, s₁.afterPush_readMem_top _ hwf₁]
  have hbelow : s₂.readMem (s₂.sp + 1) = s.reg x := by
    rw [hsp₂, BitVec.sub_add_cancel, hs₂, s₁.afterPush_readMem_ne _ _ (by bv_omega), hsp₁, hs₁,
      s.afterPush_readMem_top _ hwf]
  refine ⟨(s₂.afterPop u).afterPop v, ?_, ?_, ?_, ?_⟩
  · rw [execAll_push _ (State.hasRoom_mono (by decide) hroom) hx, s.pushedByte_of_value rx x hval, ← hs₁,
      execAll_push _ hroom₁ (hcfg₁ ▸ hy), s₁.pushedByte_of_value ry y (hcfg₁ ▸ hval), ← hs₂,
      execAll_pop _ (State.holds_mono (by decide) hholds₂) (hcfg₂ ▸ hu), execAll_pop _ hholds₃ (hcfg₂ ▸ hv), execAll]
  · rw [State.afterPop_sp, State.afterPop_sp, hsp₂, hsp₁, BitVec.sub_add_cancel, BitVec.sub_add_cancel]
  · rw [State.afterPop_reg, if_pos rfl, State.afterPop_sp, State.afterPop_readMem, hbelow]
  · rw [State.afterPop_reg, if_neg huv, State.afterPop_reg, if_pos rfl, htop, hs₁, State.afterPush_reg]

/-- With `n + k` bytes of room below SP, `k` pushes lead to `n`, with no fault (R150, R156). -/
theorem execAll_replicate_push (ra : Byte) (a : RegIdx) (n k : Nat) : ∀ s : State, s.cfg.stackOor = .fault →
    s.sp.toNat = n + k → n + k ≤ 244 → regIndex s.cfg ra = some a →
    ∃ t, execAll (List.replicate k (.push ra)) s = .next t ∧ t.sp.toNat = n ∧ t.fault = s.fault ∧
      t.halted = s.halted ∧ t.cfg = s.cfg := by
  induction k with
  | zero => intro s _ hsp _ _; exact ⟨s, rfl, hsp, rfl, rfl, rfl⟩
  | succ k ih =>
    intro s hor hsp hle ha
    have hroom : s.HasRoom 1 := .inr (by omega)
    obtain ⟨t, hrun, hspt, hfault, hhalted, hcfg⟩ := ih (s.afterPush (s.pushedByte ra a)) (by rwa [State.afterPush_cfg])
      (by rw [State.afterPush_sp]; bv_omega) (by omega) (by rwa [State.afterPush_cfg])
    rw [State.afterPush_fault] at hfault
    rw [State.afterPush_halted] at hhalted
    rw [State.afterPush_cfg] at hcfg
    exact ⟨t, (execAll_push _ hroom ha).trans hrun, hspt, hfault, hhalted, hcfg⟩

/-- Settles O24: each push takes one of the 244 bytes of room, and after the last SP is 0, where PUSH overflows. -/
theorem stackHolds244Bytes : Obligations.StackHolds244Bytes := by
  intro s ra a hor hsp hfault hhalted ha
  have hpushes := fun k (hk : k ≤ 244) =>
    execAll_replicate_push ra a (244 - k) k s hor (by rw [hsp]; exact (Nat.sub_add_cancel hk).symm) (by omega) ha
  refine ⟨fun k hk => ?_, ?_⟩
  · obtain ⟨t, hrun, hspt, hft, hht, _⟩ := hpushes k hk
    exact ⟨t, hrun, hspt, hft.trans hfault, hht.trans hhalted⟩
  · obtain ⟨t, hrun, hspt, _, _, hcfg⟩ := hpushes 244 (Nat.le_refl 244)
    have hsp0 : t.sp = 0 := BitVec.eq_of_toNat_eq hspt
    have hfull : ¬ t.HasRoom 1 := by rw [State.HasRoom, hcfg, hor, hsp0]; decide
    have hlast : exec (.push ra) t = .next (t.faulted .stackOverflow t.sp) :=
      (exec_push t ra).notMet a (hcfg ▸ ha) hfull
    refine ⟨t.faulted .stackOverflow t.sp, ?_, rfl, hsp0, t.pc, some t.ir, ?_⟩
    · rw [List.replicate_succ', execAll_append _ _ s t hrun, execAll_cons _ _ _ _ hlast, execAll]
    · rw [hsp0]; rfl

/-- Settles O28: RET pops the byte that CALL pushed, PC + 2. -/
theorem callThenRetComesBack : Obligations.CallThenRetComesBack := by
  intro s ra a hwf hroom ha
  have hholds : (s.afterCall a).Holds 1 := State.holds_of_hasRoom (s := s) 1 rfl rfl hroom
  have htop : (s.afterCall a).top = s.pc + 2 := Memory.read_write_same s.mem (s.sp - 1) (s.pc + 2) hwf
  refine ⟨(s.afterCall a).popPc, ?_, htop, BitVec.sub_add_cancel _ _, rfl⟩
  rw [execAll_cons _ _ s _ ((exec_call s ra).met a ha hroom), execAll_cons _ _ _ _ (exec_ret_of_holds _ hholds),
    execAll]

end Sys2Proof.Machine
end

section
/-! Interrupt entry and return (60_exceptions.md section 2, 46_system.md R191): where an entry that fits puts each byte
of its frame, what an entry without room answers, and IRET as its inverse. -/

namespace Sys2Proof.Machine

/-! ### The frame in memory (R216) -/

theorem State.frame_getElem?_reg (s : State) (r : RegIdx) (hr : r.val ≤ 6) : s.frame[r.val + 2]? = some (s.reg r) := by
  have place : ∀ q : RegIdx, q.val ≤ 6 → frameRegs[q.val]? = some q := by decide
  show (frameRegs.map s.reg)[r.val]? = _
  rw [List.getElem?_map, place r hr, Option.map_some]

/-- The byte pushed `i`-th by an entry that fits lies `i + 1` below the old SP. -/
theorem interruptEntry_readMem_frame (n : Line) (s : State) (hwf : s.mem.wf = true) (hfit : s.pushFits frameSize = true)
    (i : Nat) (v : Byte) (hv : s.frame[i]? = some v) :
    (interruptEntry n s).readMem (s.sp - 1 - BitVec.ofNat 8 i) = v := by
  rw [interruptEntry_of_fits n s hfit]
  exact Memory.read_pushBytes s.frame s.mem s.sp i v hwf (by rw [s.frame_length]; decide) hv

theorem interruptEntry_readMem_pc (n : Line) (s : State) (hwf : s.mem.wf = true) (hfit : s.pushFits frameSize = true) :
    (interruptEntry n s).readMem (s.sp - 1) = s.pc := by
  simpa using interruptEntry_readMem_frame n s hwf hfit 0 s.pc rfl

theorem interruptEntry_readMem_fl (n : Line) (s : State) (hwf : s.mem.wf = true) (hfit : s.pushFits frameSize = true) :
    (interruptEntry n s).readMem (s.sp - 2) = s.fl := by
  have h := interruptEntry_readMem_frame n s hwf hfit 1 s.fl rfl
  rwa [Byte.sub_one_sub] at h

theorem interruptEntry_readMem_reg (n : Line) (s : State) (hwf : s.mem.wf = true) (hfit : s.pushFits frameSize = true)
    (r : RegIdx) (hr : r.val ≤ 6) :
    (interruptEntry n s).readMem (s.sp - BitVec.ofNat 8 (r.val + 3)) = s.reg r := by
  have h := interruptEntry_readMem_frame n s hwf hfit (r.val + 2) (s.reg r) (s.frame_getElem?_reg r hr)
  rwa [Byte.sub_one_sub] at h

theorem interruptEntry_sp_of_fits (n : Line) (s : State) (hfit : s.pushFits frameSize = true) :
    (interruptEntry n s).sp = s.sp - 9 := by
  rw [interruptEntry_of_fits n s hfit]

/-! ### Pending lines, and the vector (R217) -/

/-- An entry that fits clears its own line's bit alone (D11). -/
theorem interruptEntry_is_getLsbD (n k : Line) (s : State) (hfit : s.pushFits frameSize = true) :
    (interruptEntry n s).is.getLsbD k.val = (s.is.getLsbD k.val && k != n) := by
  rw [interruptEntry_is_of_fits n s hfit, State.acknowledge_is, BitVec.getLsbD_and, BitVec.getLsbD_not, lineBit_getLsbD,
    decide_eq_true k.isLt, Bool.true_and]
  rfl

/-- Under VECTOR_MODE = indirect the vector is read after the pushes. -/
theorem interruptEntry_pc_indirect (n : Line) (s : State) (hfit : s.pushFits frameSize = true)
    (hmode : s.cfg.vectorMode = .indirect) :
    (interruptEntry n s).pc = (interruptEntry n s).readMem (vectorBase + BitVec.ofNat 8 n.val) := by
  rw [interruptEntry_of_fits n s hfit]
  simp only [State.vector, hmode]
  rfl

theorem interruptEntry_pc_direct (n : Line) (s : State) (hfit : s.pushFits frameSize = true) (vaddr : Vector Byte 8)
    (hmode : s.cfg.vectorMode = .direct vaddr) : (interruptEntry n s).pc = vaddr[n] := by
  rw [interruptEntry_of_fits n s hfit]
  simp only [State.vector, hmode]

/-! ### The statements about an entry -/

/-- Settles O34: the cycle is the entry of the lowest line, whose frame, pending bit and vector are the laws above. -/
theorem interruptEntrySavesTheFrame : Obligations.InterruptEntrySavesTheFrame := by
  intro s n hwf hrun hiip hset hlowest hroom
  have htaken : s.takenLine = some n := (s.takenLine_eq_some_iff n).mpr ⟨hiip, hset, hlowest⟩
  have hfit : s.pushFits frameSize = true := (s.pushFits_iff_hasRoom 9).mpr hroom
  refine ⟨interruptEntry n s, step_of_taken s n hrun htaken, fun k => interruptEntry_is_getLsbD n k s hfit,
    interruptEntry_readMem_pc n s hwf hfit, interruptEntry_readMem_fl n s hwf hfit, fun r hr => ?_,
    interruptEntry_readMem_other n s hfit, interruptEntry_pc_indirect n s hfit, interruptEntry_pc_direct n s hfit, ?_⟩
  · have haddr : s.sp - 3 - BitVec.ofNat 8 r.val = s.sp - BitVec.ofNat 8 (r.val + 3) := by bv_omega
    rw [haddr]
    exact interruptEntry_readMem_reg n s hwf hfit r hr
  · rw [interruptEntry_of_fits n s hfit]

/-- Settles O35: the check takes a line, and outside the range its entry halts. -/
theorem interruptEntryWithoutRoomFaults : Obligations.InterruptEntryWithoutRoomFaults := by
  intro s hrun hiip hpending hor hsp
  obtain ⟨n, htaken⟩ := s.exists_takenLine hiip hpending
  have hfit : s.pushFits frameSize = false := by
    rw [← Bool.not_eq_true, s.pushFits_iff, hor]
    simp only [reduceCtorEq, false_or, frameSize]
    omega
  rw [step_of_taken s n hrun htaken, interruptEntry_of_not_fits n s hfit, State.haltWith]

/-! ### IRET (R191, R221) -/

theorem exec_iret_of_holds (s : State) (h : s.Holds 9) : exec .iret s = .next (interruptReturn s) :=
  congrArg _ (if_pos ((s.popFits_iff_holds 9).mpr h))

theorem exec_iret_of_not_holds (s : State) (h : ¬ s.Holds 9) :
    exec .iret s = .next (s.faulted .stackUnderflow s.sp) :=
  congrArg _ (if_neg (mt (s.popFits_iff_holds 9).mp h))

/-- Settles O31: the range, and the nine pops as `interruptReturn_eq` and `interruptReturn_reg` give them. -/
theorem iretRestoresTheFrame : Obligations.IretRestoresTheFrame := by
  intro s
  refine ⟨exec_iret_of_not_holds s, fun h => ⟨interruptReturn s, exec_iret_of_holds s h, fun r hr => ?_, ?_,
    interruptReturn_eq s⟩, rfl⟩
  · have h7 : r ≠ 7 := fun e => absurd (e ▸ hr) (by decide)
    rw [interruptReturn_reg, if_neg h7]
  · rw [interruptReturn_reg, if_pos rfl]

/-- R0 to R6 come back from the frame, and R7 was never written. -/
theorem interruptReturn_interruptEntry_reg (n : Line) (s : State) (hwf : s.mem.wf = true)
    (hfit : s.pushFits frameSize = true) (r : RegIdx) :
    (interruptReturn (interruptEntry n s)).reg r = s.reg r := by
  rw [interruptReturn_reg]
  split
  · next h7 =>
    rw [h7, interruptEntry_of_fits n s hfit]
    rfl
  · next h7 =>
    have hr : r.val ≤ 6 := by
      have : r.val ≠ 7 := fun e => h7 (Fin.ext e)
      omega
    have haddr : s.sp - 9 + BitVec.ofNat 8 (6 - r.val) = s.sp - BitVec.ofNat 8 (r.val + 3) := by bv_omega
    rw [interruptEntry_sp_of_fits n s hfit, haddr]
    exact interruptEntry_readMem_reg n s hwf hfit r hr

/-- Settles O36: SP is back where the entry found it, so the nine pops read the nine bytes of the frame. -/
theorem iretUndoesInterruptEntry : Obligations.IretUndoesInterruptEntry := by
  intro s n hwf hroom
  have hfit : s.pushFits frameSize = true := (s.pushFits_iff_hasRoom 9).mpr hroom
  have hsp : (interruptEntry n s).sp = s.sp - 9 := interruptEntry_sp_of_fits n s hfit
  have hholds : (interruptEntry n s).Holds 9 := State.holds_of_hasRoom 9 (interruptEntry_cfg n s) hsp hroom
  have hfl : s.sp - 9 + 7 = s.sp - 2 := by bv_omega
  have hpc : s.sp - 9 + 8 = s.sp - 1 := by bv_omega
  refine ⟨interruptReturn (interruptEntry n s), exec_iret_of_holds _ hholds,
    State.regs_ext _ _ (interruptReturn_interruptEntry_reg n s hwf hfit), ?_, ?_, ?_, interruptReturn_iip _, ?_, ?_, ?_⟩
  · rw [interruptReturn_fl, hsp, hfl, interruptEntry_readMem_fl n s hwf hfit]
  · rw [interruptReturn_pc, hsp, hpc, interruptEntry_readMem_pc n s hwf hfit]
  · rw [interruptReturn_sp, hsp, BitVec.sub_add_cancel]
  · rw [interruptReturn_is, interruptEntry_is_getLsbD n n s hfit, bne_self_eq_false, Bool.and_false]
  · rw [interruptReturn_im, interruptEntry_im]
  · rw [interruptReturn_out, interruptEntry_out]

/-! ### The first cycle (70_reset_and_hazards.md R241) -/

/-- A launch has the empty stack (R28). -/
@[simp] theorem State.launch_sp (cfg : Config) (im0 : Byte) (mem0 : Memory) : (State.launch cfg im0 mem0).sp = 244 :=
  rfl

/-- The one line raised after a launch is taken if the mask enables it. -/
theorem State.launch_raiseLine_takenLine (cfg : Config) (im0 : Byte) (mem0 : Memory) (n : Line)
    (hn : im0.getLsbD n.val = true) : ((State.launch cfg im0 mem0).raiseLine n).takenLine = some n := by
  have hbit : ∀ k : Line, (im0 &&& (0#8 ||| lineBit n)).getLsbD k.val = (im0.getLsbD k.val && decide (k = n)) :=
    fun k => by rw [BitVec.zero_or, BitVec.getLsbD_and, lineBit_getLsbD]
  refine (State.takenLine_eq_some_iff _ n).mpr ⟨rfl, (hbit n).trans (by simp [hn]), fun m hm => (hbit m).trans ?_⟩
  simp [Fin.ne_of_lt hm]

/-- Settles O54: nothing is pending at a launch, so the first cycle fetches at PC = 0; a line raised before it is taken,
and the frame of its entry fits below SP = 244. -/
theorem firstCycleFetchesAtZero : Obligations.FirstCycleFetchesAtZero := by
  rintro cfg im0 mem0 s rfl
  refine ⟨step_of_noInterrupt _ rfl (.inr BitVec.and_zero), fun n hwf hn => ?_⟩
  have htaken := State.launch_raiseLine_takenLine cfg im0 mem0 n hn
  have hroom : ((State.launch cfg im0 mem0).raiseLine n).HasRoom 9 := .inr ⟨(by decide : 9 ≤ 244), Nat.le_refl 244⟩
  have hfit := (State.pushFits_iff_hasRoom _ 9).mpr hroom
  have hsaved : ((State.launch cfg im0 mem0).raiseLine n).sp - 1 = 243 := by
    rw [State.raiseLine_sp, State.launch_sp]
    decide
  have hsp : ((State.launch cfg im0 mem0).raiseLine n).sp - 9 = 235 := by
    rw [State.raiseLine_sp, State.launch_sp]
    decide
  refine ⟨interruptEntry n _, step_of_taken _ n rfl htaken, ?_, interruptEntry_iip_of_hasRoom n _ hroom, ?_⟩
  · rw [← hsaved, interruptEntry_readMem_pc n _ hwf hfit]
    rfl
  · rw [interruptEntry_sp_of_fits n _ hfit, hsp]

end Sys2Proof.Machine
end

section
/-! Faults (60_exceptions.md R201 to R209): the operands of an instruction decide BAD_REGISTER before its effect does
anything, and a fault it raises has one of the six causes. -/

namespace Sys2Proof.Machine

/-! ### Register operands come first (R73, R208) -/

/-- The bytes that name no register (R73). -/
theorem regIndex_eq_none_iff (cfg : Config) (b : Byte) :
    regIndex cfg b = none ↔ cfg.regIndexMode = .fault ∧ 8 ≤ b.toNat := by
  cases hm : cfg.regIndexMode with
  | fault => simp [regIndex_fault_none cfg b hm]
  | mask3 => simp [regIndex_mask3 cfg b hm]

/-- An instruction is one of the three operand forms around its effect. -/
theorem exec_operandForm (i : Instr) (s : State) : regOperands i = [] ∨
    (∃ ra effect, regOperands i = [ra] ∧ exec i s = withReg ra s effect) ∨
    (∃ ra rb effect, regOperands i = [ra, rb] ∧ exec i s = withRegs ra rb s effect) := by
  cases i with
  | nop | hlt | ret | iret | reservedAa3 => exact .inl rfl
  | pra ra | prn ra | call ra | int ra | pop ra | push ra => exact .inr (.inl ⟨ra, _, rfl, rfl⟩)
  | jmp ra | jeq ra | jne ra | jlt ra | jgt ra => exact .inr (.inl ⟨ra, _, rfl, rfl⟩)
  | not ra | inc ra | dec ra | ldi ra => exact .inr (.inl ⟨ra, _, rfl, rfl⟩)
  | ld ra rb | st ra rb | cmp ra rb => exact .inr (.inr ⟨ra, rb, _, rfl, rfl⟩)
  | add ra rb | sub ra rb | mul ra rb | div ra rb | mod ra rb => exact .inr (.inr ⟨ra, rb, _, rfl, rfl⟩)
  | or ra rb | xor ra rb | and ra rb => exact .inr (.inr ⟨ra, rb, _, rfl, rfl⟩)

/-- The first operand byte that names no register is the fault's info. -/
theorem exec_of_first_bad (i : Instr) (s : State) (x : Byte)
    (hx : (regOperands i).find? (fun b => regIndex s.cfg b = none) = some x) :
    exec i s = .next (s.faulted .badRegister x) := by
  rcases exec_operandForm i s with h0 | ⟨ra, effect, h1, hexec⟩ | ⟨ra, rb, effect, h2, hexec⟩
  · simp [h0] at hx
  · rw [h1] at hx
    cases ha : regIndex s.cfg ra with
    | none =>
      obtain rfl : ra = x := by simpa [ha] using hx
      exact hexec.trans (withReg_none ra s effect ha)
    | some a => simp [ha] at hx
  · rw [h2] at hx
    cases ha : regIndex s.cfg ra with
    | none =>
      obtain rfl : ra = x := by simpa [ha] using hx
      exact hexec.trans (withRegs_none_left ra rb s effect ha)
    | some a =>
      cases hb : regIndex s.cfg rb with
      | none =>
        obtain rfl : rb = x := by simpa [ha, hb] using hx
        exact hexec.trans (withRegs_none_right ra rb s effect a ha hb)
      | some b => simp [ha, hb] at hx

/-! ### The cause of a fault -/

/-- The instruction `i` at `s` left the record as it was, or faulted with a cause and its info (R201 to R206). -/
def FaultHasCause (i : Instr) (s t : State) : Prop :=
  t.fault = s.fault ∨ ∃ c info, t = s.faulted c info ∧ mayRaise i s info c

/-- An operand that names no register is the cause of BAD_REGISTER (R204). -/
theorem faultHasCause_badRegister {i : Instr} {s : State} {x : Byte} (hx : x ∈ regOperands i)
    (hnone : regIndex s.cfg x = none) : FaultHasCause i s (s.raiseFault .badRegister x) := by
  obtain ⟨hmode, hbig⟩ := (regIndex_eq_none_iff s.cfg x).mp hnone
  exact .inr ⟨_, x, rfl, hx, hbig, hmode⟩

theorem faultHasCause_of_withReg {i : Instr} {ra : Byte} {s t : State} {effect : RegIdx → State}
    (hops : regOperands i = [ra]) (h : withReg ra s effect = .next t)
    (heffect : ∀ a, regIndex s.cfg ra = some a → FaultHasCause i s (effect a)) : FaultHasCause i s t := by
  rcases withReg_next ra s t effect h with ⟨hnone, rfl⟩ | ⟨a, ha, rfl⟩
  · exact faultHasCause_badRegister (by simp [hops]) hnone
  · exact heffect a ha

theorem faultHasCause_of_withRegs {i : Instr} {ra rb : Byte} {s t : State} {effect : RegIdx → RegIdx → State}
    (hops : regOperands i = [ra, rb]) (h : withRegs ra rb s effect = .next t)
    (heffect : ∀ a b, regIndex s.cfg ra = some a → regIndex s.cfg rb = some b → FaultHasCause i s (effect a b)) :
    FaultHasCause i s t := by
  rcases withRegs_next ra rb s t effect h with ⟨x, rfl, ⟨rfl, hnone⟩ | ⟨rfl, _, hnone⟩⟩ | ⟨a, b, ha, hb, rfl⟩
  · exact faultHasCause_badRegister (by simp [hops]) hnone
  · exact faultHasCause_badRegister (by simp [hops]) hnone
  · exact heffect a b ha hb

/-- An effect behind a condition: the fault of the condition not met has its cause. -/
theorem faultHasCause_ite {i : Instr} {s t : State} {P : Prop} [Decidable P] {code : FaultCode} {info : Byte}
    (ht : t.fault = s.fault) (hcause : ¬ P → mayRaise i s info code) :
    FaultHasCause i s (if P then t else s.raiseFault code info) := by
  split
  · exact .inl ht
  · next hP => exact .inr ⟨code, info, rfl, hcause hP⟩

/-- The two ways of a conditional jump leave the record. -/
theorem faultHasCause_of_jumpIf {i : Instr} {cond : Bool} {ra : Byte} {s t : State} (hops : regOperands i = [ra])
    (h : jumpIf cond ra s = .next t) : FaultHasCause i s t :=
  faultHasCause_of_withReg hops h fun a _ => .inl (by split <;> rfl)

/-- A zero divisor is the cause of DIVIDE_BY_ZERO (R201). -/
theorem faultHasCause_of_aluDivide {i : Instr} {f : Byte → Byte → Byte} {ra rb : Byte} {s t : State}
    (hi : i = .div ra rb ∨ i = .mod ra rb) (h : aluDivide f ra rb s = .next t) : FaultHasCause i s t := by
  have hops : regOperands i = [ra, rb] := by rcases hi with rfl | rfl <;> rfl
  refine faultHasCause_of_withRegs hops h fun a b _ hb => ?_
  split
  · next hzero => exact .inr ⟨_, rb, rfl, ra, b, hi, hb, hzero⟩
  · exact .inl rfl

theorem exec_faultHasCause (i : Instr) (s t : State) (h : exec i s = .next t) : FaultHasCause i s t := by
  cases i with
  | nop | hlt => cases h; exact .inl rfl
  | ret =>
    cases h
    exact faultHasCause_ite rfl fun hfit => ⟨rfl, .inl ⟨.inr rfl, mt (s.popFits_iff_holds 1).mpr hfit⟩⟩
  | iret =>
    cases h
    exact faultHasCause_ite (interruptReturn_fault s) fun hfit =>
      ⟨rfl, .inr ⟨rfl, mt (s.popFits_iff_holds 9).mpr hfit⟩⟩
  | pra ra | prn ra | jmp ra | not ra | inc ra | dec ra | ldi ra =>
    exact faultHasCause_of_withReg rfl h fun a _ => .inl rfl
  | jeq ra | jne ra | jlt ra | jgt ra => exact faultHasCause_of_jumpIf rfl h
  | call ra =>
    exact faultHasCause_of_withReg rfl h fun a _ => faultHasCause_ite rfl fun hfit =>
      ⟨⟨ra, .inr rfl⟩, rfl, mt (s.pushFits_iff_hasRoom 1).mpr hfit⟩
  | push ra =>
    exact faultHasCause_of_withReg rfl h fun a _ => faultHasCause_ite (by simp) fun hfit =>
      ⟨⟨ra, .inl rfl⟩, rfl, mt (s.pushFits_iff_hasRoom 1).mpr hfit⟩
  | pop ra =>
    exact faultHasCause_of_withReg rfl h fun a _ => faultHasCause_ite rfl fun hfit =>
      ⟨rfl, .inl ⟨.inl ⟨ra, rfl⟩, mt (s.popFits_iff_holds 1).mpr hfit⟩⟩
  | int ra =>
    refine faultHasCause_of_withReg rfl h fun a ha => ?_
    split
    · exact .inl rfl
    · next hbig => exact .inr ⟨_, s.reg a, rfl, ra, a, rfl, ha, rfl, Nat.le_of_not_lt hbig⟩
  | ld ra rb | st ra rb | cmp ra rb | add ra rb | sub ra rb | mul ra rb | or ra rb | xor ra rb | and ra rb =>
    exact faultHasCause_of_withRegs rfl h fun a b _ _ => .inl rfl
  | div ra rb => exact faultHasCause_of_aluDivide (.inl rfl) h
  | mod ra rb => exact faultHasCause_of_aluDivide (.inr rfl) h
  | reservedAa3 opcode =>
    cases hmode : s.cfg.aa3Mode with
    | nop => cases (exec_reservedAa3_nop opcode s hmode).symm.trans h; exact .inl rfl
    | fault =>
      cases (exec_reservedAa3_fault opcode s hmode).symm.trans h
      exact .inr ⟨_, opcode, rfl, rfl, hmode⟩

/-- Settles O39: with no record before, the record is that of a fault that has its cause. -/
theorem faultsHaveTheirCause : Obligations.FaultsHaveTheirCause := by
  intro i s t r hnone hexec hrec
  rcases exec_faultHasCause i s t hexec with hsame | ⟨c, info, rfl, hcause⟩
  · rw [hsame, hnone] at hrec
    cases hrec
  · cases hrec
    exact hcause

/-- Settles O40: under REG_INDEX_MODE = fault the bytes above 7 are those that name no register, and under mask3 the
cause of BAD_REGISTER cannot be met. -/
theorem badRegisterOperandFaultsFirst : Obligations.BadRegisterOperandFaultsFirst := by
  intro i s
  refine ⟨fun x hmode hx => exec_of_first_bad i s x ?_, fun t r hmode hnone hexec hrec hcode => ?_⟩
  · simpa only [regIndex_fault_none s.cfg _ hmode] using hx
  · have hcause := faultsHaveTheirCause i s t r hnone hexec hrec
    rw [hcode] at hcause
    obtain ⟨_, _, hfault⟩ := hcause
    exact absurd (hfault.symm.trans hmode) (by decide)

end Sys2Proof.Machine
end

section
/-! Frames (20_memory.md R52 and the instructions' own rules): each statement about an instruction is a case analysis of
its `ExecEffect`, where the shapes of other instructions drop out. -/

namespace Sys2Proof.Machine

/-! ### Reading a frame off the shape of a state -/

/-- A state made from `s` by writing registers, PC, the run status and memory has the special registers of `s`. -/
theorem specialsSame_of_eq {s t : State}
    (h : t = { s with regs := t.regs, pc := t.pc, halted := t.halted, fault := t.fault, mem := t.mem }) :
    SpecialsSame s t := by
  rw [h]
  exact ⟨rfl, rfl, rfl, rfl, rfl, rfl, rfl, rfl, rfl, rfl⟩

theorem bytesSame_of_mem {s t : State} (changed : Byte → Prop) (h : t.mem = s.mem) : BytesSameExcept changed s t :=
  fun x _ => State.readMem_eq_of_mem h x

theorem bytesSame_of_write {s t : State} {a v : Byte} (h : t.mem = s.mem.write a v) :
    BytesSameExcept (fun x => x = a) s t := by
  intro x hx
  refine Classical.byContradiction fun hne => ?_
  exact hx (State.eq_of_readMem_ne_of_write h hne)

/-- The run status after any instruction but HLT (R98). -/
theorem ExecEffect.statusSame {s t : State} {i : Instr} (h : ExecEffect s i t) (hi : i ≠ .hlt) : StatusSame s t := by
  rcases h.status_cases with hfault | ⟨hfault, hhalted | ⟨e, _⟩⟩
  · exact .inr hfault
  · exact .inl ⟨hhalted, hfault⟩
  · exact absurd e hi

/-! ### Instructions that write one register -/

/-- The operand byte of a register write is the instruction's own. -/
theorem WritesReg.unique {i : Instr} {ra ra' : Byte} (h : WritesReg i ra) (h' : WritesReg i ra') : ra = ra' := by
  cases h <;> cases h' <;> rfl

theorem WritesOnlyPc.not_writesReg {i : Instr} {ra : Byte} (h : WritesOnlyPc i) : ¬ WritesReg i ra := by
  intro h'
  cases h <;> cases h'

/-- A register writer faults, or writes the register of operand A and PC (R110, R140, R141). -/
theorem ExecEffect.of_writesReg {s t : State} {i : Instr} {ra : Byte} (hi : WritesReg i ra) (h : ExecEffect s i t) :
    (∃ c info, t = s.faulted c info) ∨ ∃ a v n, regIndex s.cfg ra = some a ∧ t = (s.setReg a v).setPc n := by
  cases h with
  | fault _ c info => exact .inl ⟨c, info, rfl⟩
  | writesReg _ ra' a v n hi' ha => rw [hi.unique hi']; exact .inr ⟨a, v, n, ha, rfl⟩
  | onlyPc _ n hpc => exact absurd hi hpc.not_writesReg
  | _ => cases hi

/-- Settles O49: the thirteen instructions are the register writers. -/
theorem registerWritingFrame : Obligations.RegisterWritingFrame := by
  intro i s t ra rb hlist hexec
  have hi : WritesReg i ra := by
    rcases hlist with rfl | rfl | rfl | rfl | rfl | rfl | rfl | rfl | rfl | rfl | rfl | rfl | rfl <;> constructor
  have hstatus : StatusSame s t := (exec_effect i s t hexec).statusSame (by rintro rfl; cases hi)
  rcases (exec_effect i s t hexec).of_writesReg hi with ⟨c, info, rfl⟩ | ⟨a, v, n, ha, rfl⟩
  · exact ⟨fun _ _ => rfl, specialsSame_of_eq rfl, fun _ _ => rfl, hstatus⟩
  · exact ⟨fun r hr => s.setReg_reg_ne a r v fun e => hr (e ▸ ha), specialsSame_of_eq rfl, fun _ _ => rfl, hstatus⟩

/-! ### Instructions that write no register and no memory -/

/-- CMP writes FL alone of the special registers (R119). -/
theorem ExecEffect.specialsSame_cmp {s t : State} {ra rb : Byte} (h : ExecEffect s (.cmp ra rb) t) :
    SpecialsSame { s with fl := t.fl } t := by
  cases h with
  | fault | cmp => exact specialsSame_of_eq rfl
  | writesReg _ _ _ _ _ hi | onlyPc _ _ hi => cases hi

/-- PRN and PRA write the output alone (R180). -/
theorem ExecEffect.specialsSame_output {s t : State} {i : Instr} {ra : Byte} (hi : i = .prn ra ∨ i = .pra ra)
    (h : ExecEffect s i t) : SpecialsSame { s with out := t.out } t := by
  cases h with
  | fault | prn | pra => exact specialsSame_of_eq rfl
  | writesReg _ _ _ _ _ hw => rcases hi with rfl | rfl <;> cases hw
  | onlyPc _ _ hpc => rcases hi with rfl | rfl <;> cases hpc
  | _ => simp at hi

/-- INT writes IS alone (R190). -/
theorem ExecEffect.specialsSame_int {s t : State} {ra : Byte} (h : ExecEffect s (.int ra) t) :
    SpecialsSame { s with is := t.is } t := by
  cases h with
  | fault | int => exact specialsSame_of_eq rfl
  | writesReg _ _ _ _ _ hi | onlyPc _ _ hi => cases hi

/-- The jumps, NOP and the reserved class write no special register but PC (R160, R193, R195). -/
theorem ExecEffect.specialsSame_onlyPc {s t : State} {i : Instr} (hi : WritesOnlyPc i) (h : ExecEffect s i t) :
    SpecialsSame s t := by
  cases h with
  | fault | onlyPc => exact specialsSame_of_eq rfl
  | writesReg _ _ _ _ _ hw => exact absurd hw hi.not_writesReg
  | _ => cases hi

/-- Settles O50: the special registers instruction by instruction; the shapes that write a register or memory belong to
none of the listed instructions. -/
theorem noRegisterNoMemoryFrame : Obligations.NoRegisterNoMemoryFrame := by
  intro i s t ra rb hexec
  have heff := exec_effect i s t hexec
  refine ⟨?_, ?_, ?_, ?_, ?_, fun hlist => ?_⟩
  · rintro rfl
    exact ⟨heff.specialsSame_cmp, heff.statusSame (by simp)⟩
  · intro hi
    exact ⟨heff.specialsSame_output hi, heff.statusSame (by rintro rfl; simp at hi)⟩
  · rintro rfl
    exact ⟨heff.specialsSame_int, heff.statusSame (by simp)⟩
  · intro hlist
    have hi : WritesOnlyPc i := by rcases hlist with rfl | rfl | rfl | rfl | rfl | rfl | rfl <;> constructor
    exact ⟨heff.specialsSame_onlyPc hi, heff.statusSame (by rintro rfl; cases hi)⟩
  · rintro rfl
    cases hexec
    exact ⟨specialsSame_of_eq rfl, rfl⟩
  · have hsame : t.regs = s.regs ∧ t.mem = s.mem := by
      cases heff with
      | writesReg _ _ _ _ _ hw => cases hw <;> simp at hlist
      | st | push | pop | call | ret | iret => simp at hlist
      | _ => exact ⟨rfl, rfl⟩
    obtain ⟨hregs, hmem⟩ := hsame
    exact ⟨fun r _ => by rw [State.reg, hregs, State.reg], bytesSame_of_mem _ hmem⟩

/-! ### Instructions that store a byte -/

/-- With an operand that names no register, ST, CALL and PUSH leave memory (R208). -/
theorem ExecEffect.mem_of_bad_operand {s t : State} {i : Instr} {ra : Byte} (h : ExecEffect s i t)
    (hi : i = .call ra ∨ i = .push ra ∨ ∃ rb, i = .st ra rb) (hbad : regIndex s.cfg ra = none) : t.mem = s.mem := by
  rcases h.mem_cases with e | ⟨ra', a, v, ha, hstore⟩
  · exact e
  · have : ra' = ra := by
      rcases hstore with ⟨rfl | rfl, _⟩ | ⟨_, rfl, _⟩ <;> simpa using hi
    rw [this, hbad] at ha
    cases ha

/-- Settles O51: each instruction's one shape beside the fault. -/
theorem storingFrame : Obligations.StoringFrame := by
  intro i s t ra rb hexec
  have heff := exec_effect i s t hexec
  refine ⟨?_, ?_, ?_⟩
  · rintro rfl
    have hstatus : StatusSame s t := heff.statusSame (by simp)
    cases heff with
    | fault => exact ⟨fun _ _ => rfl, specialsSame_of_eq rfl, hstatus, fun _ _ _ _ _ _ => rfl, fun _ _ _ => rfl⟩
    | st _ _ a b n ha hb =>
      refine ⟨fun _ _ => rfl, specialsSame_of_eq rfl, hstatus, fun a' ha' addr haddr => ?_, fun hbad => ?_⟩
      · obtain rfl : a = a' := Option.some.inj (ha.symm.trans ha')
        rw [← haddr]
        exact bytesSame_of_write rfl
      · simp [ha, hb] at hbad
    | writesReg _ _ _ _ _ hi | onlyPc _ _ hi => cases hi
  · rintro rfl
    have hstatus : StatusSame s t := heff.statusSame (by simp)
    have hbad := heff.mem_of_bad_operand (.inl rfl)
    cases heff with
    | fault => exact ⟨fun _ _ => rfl, specialsSame_of_eq rfl, hstatus, fun _ _ _ _ => rfl, fun _ _ _ => rfl⟩
    | call _ a v n ha hr =>
      refine ⟨fun _ _ => rfl, specialsSame_of_eq rfl, hstatus, fun addr haddr => ?_, fun hn => ?_⟩
      · rw [← haddr]
        exact bytesSame_of_write rfl
      · exact bytesSame_of_mem _ (hbad hn)
    | writesReg _ _ _ _ _ hi | onlyPc _ _ hi => cases hi
  · rintro rfl
    have hstatus : StatusSame s t := heff.statusSame (by simp)
    have hbad := heff.mem_of_bad_operand (.inr (.inl rfl))
    cases heff with
    | fault => exact ⟨fun _ _ => rfl, specialsSame_of_eq rfl, hstatus, fun _ _ _ _ => rfl, fun _ _ _ => rfl⟩
    | push _ a v n ha hr =>
      refine ⟨(s.push v).mirror_reg_ne v, ?_, hstatus, fun addr haddr => ?_, fun hn => ?_⟩
      · rw [State.mirror_eq]
        exact specialsSame_of_eq rfl
      · rw [← haddr, State.mirror_eq]
        exact bytesSame_of_write rfl
      · exact bytesSame_of_mem _ (hbad hn)
    | writesReg _ _ _ _ _ hi | onlyPc _ _ hi => cases hi

/-! ### Instructions that pop -/

/-- The return from an interrupt writes SP, FL and IIP alone of the special registers (R191). -/
theorem interruptReturn_specialsSame (s : State) :
    SpecialsSame { s with
      sp := (interruptReturn s).sp, fl := (interruptReturn s).fl, iip := (interruptReturn s).iip }
      (interruptReturn s) :=
  ⟨rfl, rfl, interruptReturn_im s, interruptReturn_is s, rfl, interruptReturn_ir s, interruptReturn_opa s,
    interruptReturn_opb s, interruptReturn_out s, interruptReturn_cfg s⟩

/-- Settles O52: each instruction's one shape beside the fault, and memory as `ExecEffect.mem_cases` says. -/
theorem poppingFrame : Obligations.PoppingFrame := by
  intro i s t ra hexec
  have heff := exec_effect i s t hexec
  refine ⟨?_, ?_, ?_, fun hlist => ?_⟩
  · rintro rfl
    cases heff with
    | fault => exact ⟨fun _ _ => rfl, specialsSame_of_eq rfl⟩
    | pop _ a n ha => exact ⟨fun r hr => s.dropTop.setReg_reg_ne a r _ fun e => hr (e ▸ ha), specialsSame_of_eq rfl⟩
    | writesReg _ _ _ _ _ hi | onlyPc _ _ hi => cases hi
  · rintro rfl
    cases heff with
    | fault | ret => exact ⟨fun _ _ => rfl, specialsSame_of_eq rfl⟩
    | writesReg _ _ _ _ _ hi | onlyPc _ _ hi => cases hi
  · rintro rfl
    cases heff with
    | fault => exact ⟨fun _ _ => rfl, specialsSame_of_eq rfl⟩
    | iret =>
      refine ⟨fun r hr => ?_, interruptReturn_specialsSame s⟩
      rw [interruptReturn_reg, if_pos (Decidable.not_not.mp hr)]
      exact congrArg s.reg (Decidable.not_not.mp hr).symm
    | writesReg _ _ _ _ _ hi | onlyPc _ _ hi => cases hi
  · refine ⟨bytesSame_of_mem _ ?_, heff.statusSame (by rintro rfl; simp at hlist)⟩
    rcases heff.mem_cases with e | ⟨_, _, _, _, ⟨rfl | rfl, _⟩ | ⟨_, rfl, _⟩⟩
    · exact e
    all_goals simp at hlist

end Sys2Proof.Machine
end
